-- ==== Sys2Proof/Word.lean ====
section
/-! DEFINITION. The word types of the hardware (rules R4, R5 and R6 of spec/00_scope.md). Every value is unsigned;
sizes are the fixed ones of rule R4 and none is configurable. -/

namespace Sys2Proof

/-- A byte of memory or a general register's contents: 8 bits (R4). -/
abbrev Byte := BitVec 8

/-- An instruction word, the program counter, the index register, a return address: 16 bits (R4). -/
abbrev Word := BitVec 16

/-- The 12-bit address immediate `nnn` (R46). -/
abbrev Addr12 := BitVec 12

/-- The index of a general register, 0..15 (R10, R11). -/
abbrev RegIdx := Fin 16

end Sys2Proof
end

