-- ==== Sys2Proof/Syntax.lean ====
section
/-! DEFINITION. The instructions: one constructor per row of spec/opcode_table.json, with the operands rule R49 of
spec/30_encoding.md gives each. -/

namespace Sys2Proof

/-- An instruction. Register indices and the row count are numbers 0..15; the immediates `nnn` and `nn` are the
word's bits (R46, R48). -/
inductive Instr where
  /-- CLS, clear display (R80). -/
  | cls
  /-- RET, return (R72). -/
  | ret
  /-- JP nnn, jump (R70). -/
  | jp (nnn : Addr12)
  /-- CALL nnn, call (R71). -/
  | call (nnn : Addr12)
  /-- LD Vx, nn, set register to immediate (R76). -/
  | ldVx (x : RegIdx) (nn : Byte)
  /-- ADD Vx, nn, add immediate to register, wrapping (R77). -/
  | addVx (x : RegIdx) (nn : Byte)
  /-- LD I, nnn, set index register (R75). -/
  | ldI (nnn : Addr12)
  /-- DRW Vx, Vy, n, draw a sprite of `n` rows (R81). -/
  | drw (x y : RegIdx) (n : Fin 16)
  /-- Every other word: a no-op that carries the whole word (R85). -/
  | unrecognised (w : Word)
  deriving DecidableEq, Repr

end Sys2Proof
end

