-- ==== Sys2Proof/Decode.lean ====
section
/-! DEFINITION. Decoding and encoding: byte order (R33), the fields (R46), the opcode map (R49), the dispatch order
(R50), and the encoder written from the same map and rule R54. The numeric opcode values are the ones rule R49
states (log entry 1). -/

namespace Sys2Proof

/-! ### Byte order -/

/-- The big-endian word of two bytes: the byte at the lower address is bits 15..8 (R33). -/
def composeWord (hi lo : Byte) : Word := hi ++ lo

/-- Bits 15..8, the byte stored at the lower address (R33). -/
def highByte (w : Word) : Byte := w.extractLsb' 8 8

/-- Bits 7..0, the byte stored at the higher address (R33). -/
def lowByte (w : Word) : Byte := w.extractLsb' 0 8

/-! ### Fields (R46) -/

/-- `op`, bits 15..12. -/
def fieldOp (w : Word) : BitVec 4 := w.extractLsb' 12 4

/-- `x`, bits 11..8. -/
def fieldX (w : Word) : RegIdx := (w.extractLsb' 8 4).toFin

/-- `y`, bits 7..4. -/
def fieldY (w : Word) : RegIdx := (w.extractLsb' 4 4).toFin

/-- `n`, bits 3..0. -/
def fieldN (w : Word) : Fin 16 := (w.extractLsb' 0 4).toFin

/-- `nn`, bits 7..0. -/
def fieldNn (w : Word) : Byte := w.extractLsb' 0 8

/-- `nnn`, bits 11..0. -/
def fieldNnn (w : Word) : Addr12 := w.extractLsb' 0 12

/-! ### The decoder -/

/-- Rule R50's algorithm: full-word equality first, then the leading nibble, then the catch-all. Total on all 65536
words and a function of the word alone (R51). -/
def decode (w : Word) : Instr :=
  if w = 0x00E0#16 then .cls
  else if w = 0x00EE#16 then .ret
  else match fieldOp w with
    | 0x1#4 => .jp (fieldNnn w)
    | 0x2#4 => .call (fieldNnn w)
    | 0x6#4 => .ldVx (fieldX w) (fieldNn w)
    | 0x7#4 => .addVx (fieldX w) (fieldNn w)
    | 0xA#4 => .ldI (fieldNnn w)
    | 0xD#4 => .drw (fieldX w) (fieldY w) (fieldN w)
    | _ => .unrecognised w

/-- Why bytes are no instruction. -/
inductive DecodeError where
  /-- Fewer than the two bytes every instruction has (R45). -/
  | truncated
  deriving DecidableEq, Repr

/-- Decode the first instruction of a byte sequence, with the bytes after it (R45). -/
def decodeBytes : List Byte → Except DecodeError (Instr × List Byte)
  | hi :: lo :: rest => .ok (decode (composeWord hi lo), rest)
  | [_] => .error .truncated
  | [] => .error .truncated

/-! ### The encoder -/

/-- The word of an instruction (R49, R54). -/
def encode : Instr → Word
  | .cls => 0x00E0#16
  | .ret => 0x00EE#16
  | .jp nnn => 0x1#4 ++ nnn
  | .call nnn => 0x2#4 ++ nnn
  | .ldVx x nn => 0x6#4 ++ BitVec.ofFin (w := 4) x ++ nn
  | .addVx x nn => 0x7#4 ++ BitVec.ofFin (w := 4) x ++ nn
  | .ldI nnn => 0xA#4 ++ nnn
  | .drw x y n => 0xD#4 ++ BitVec.ofFin (w := 4) x ++ BitVec.ofFin (w := 4) y ++ BitVec.ofFin (w := 4) n
  | .unrecognised w => w

/-- The two bytes of an instruction as memory stores them, high byte first (R33, R45). -/
def encodeBytes (i : Instr) : List Byte := [highByte (encode i), lowByte (encode i)]

/-! ### The opcode table (R49) -/

/-- The nine rows of rule R49, by mnemonic. -/
inductive Mnemonic where
  | CLS | RET | JP | CALL | LD_Vx | ADD_Vx | LD_I | DRW | UNRECOGNISED
  deriving DecidableEq, Repr

/-- The row an instruction belongs to. -/
def Instr.mnemonic : Instr → Mnemonic
  | .cls => .CLS
  | .ret => .RET
  | .jp _ => .JP
  | .call _ => .CALL
  | .ldVx _ _ => .LD_Vx
  | .addVx _ _ => .ADD_Vx
  | .ldI _ => .LD_I
  | .drw _ _ _ => .DRW
  | .unrecognised _ => .UNRECOGNISED

/-- A row of the opcode map: the word `w` selects it when `w & mask = pattern` (R49). -/
structure OpcodeRow where
  mnemonic : Mnemonic
  pattern : Word
  mask : Word
  deriving DecidableEq, Repr

/-- The test of rule R49: `w & mask = match`. -/
def OpcodeRow.selects (row : OpcodeRow) (w : Word) : Bool := w &&& row.mask == row.pattern

/-- The eight recognised rows, in the table's priority order (R49). -/
def recognisedRows : List OpcodeRow :=
  [⟨.CLS, 0x00E0#16, 0xFFFF#16⟩, ⟨.RET, 0x00EE#16, 0xFFFF#16⟩, ⟨.JP, 0x1000#16, 0xF000#16⟩,
   ⟨.CALL, 0x2000#16, 0xF000#16⟩, ⟨.LD_Vx, 0x6000#16, 0xF000#16⟩, ⟨.ADD_Vx, 0x7000#16, 0xF000#16⟩,
   ⟨.LD_I, 0xA000#16, 0xF000#16⟩, ⟨.DRW, 0xD000#16, 0xF000#16⟩]

/-- The whole table: the catch-all row comes last and matches every word (R49, R50). -/
def opcodeRows : List OpcodeRow := recognisedRows ++ [⟨.UNRECOGNISED, 0x0000#16, 0x0000#16⟩]

/-! ### Words numbered as the opcode table numbers them -/

/-- The instruction word of a table row's bits: bit 0 is the word's least significant bit, bits from `nbits` up are
0, and an instruction is one 16-bit word (R45, R46; log entry 18). -/
def tableWord (nbits w : Nat) : Word := BitVec.ofNat 16 (w % 2 ^ nbits)

/-- The instruction the decoder reads from the bytes of a table word, laid out as the hardware stores them. -/
def decodeTableWord (nbits w : Nat) : Option Instr :=
  match decodeBytes [highByte (tableWord nbits w), lowByte (tableWord nbits w)] with
  | .ok (i, _) => some i
  | .error _ => none

end Sys2Proof
end

