-- ==== Sys2Proof/Config.lean ====
section
/-! DEFINITION. What is fixed for one instance of the hardware. Every size is fixed by rule R4 and stands in the
types of State; the two parameters R4 marks OPEN are arguments of the host's operations (Machine/HostOps.lean),
held together in Params. Nothing in this hardware needs a free value: the spec states every result. -/

namespace Sys2Proof.Config

/-- The origin: the reset value of `pc` and the conventional load address, 0x200 (R4, R28). -/
def origin : Word := 0x200#16

/-- RESET_MEM_IMAGE: the bytes RESET writes into zeroed memory, in order, each address in 0..4095 by its type
(R4, R110; 92_eei_decisions.md D10). -/
abbrev MemImage := List (Fin 4096 × Byte)

/-- The two OPEN parameters of rule R4, with the defaults the spec gives them. -/
structure Params where
  /-- RESET_MEM_IMAGE; default empty, so memory is all zero after reset (R4, R110). -/
  resetMemImage : MemImage := []
  /-- DIAG_ENABLE: whether a tick that executes an unrecognised opcode reports a diagnostic; it never changes
  state (R4, R94). -/
  diagEnable : Bool := false
  deriving DecidableEq, Repr

end Sys2Proof.Config
end

