-- ==== Sys2Proof/Machine/State.lean ====
section
/-! DEFINITION. The state of the machine, its reset value, and the reasons an operation can stop: every element of
spec/10_state.md rules R10 to R25 and nothing else (R27). -/

namespace Sys2Proof.Machine

/-- The contents of memory: the bytes that are not 0, by strictly rising address. An unlisted address of 0..4095
reads as 0, its value after reset (R23, R28; log entry 17). -/
abbrev Memory := List Host.Cell

/-- The canonical form: addresses strictly rise, each exists (0..4095), and no listed byte is the 0 an unlisted
address reads as. -/
abbrev Memory.wf (m : Memory) : Prop :=
  m.Pairwise (fun a b => a.1 < b.1) ∧ ∀ c ∈ m, c.1 < 4096 ∧ c.2 ≠ 0#8

/-- The framebuffer: 32 rows of 64 cells, row-major; `true` is lit (R25). -/
abbrev Framebuffer := Vector (Vector Bool 64) 32

/-- Every cell unlit (R28, R80). -/
def Framebuffer.dark : Framebuffer := Vector.replicate 32 (Vector.replicate 64 false)

/-- The whole state of the machine (R10 to R27). -/
structure State where
  /-- The general registers V0..VF; VF is `v[15]`, also the collision flag (R10, R12, R16). -/
  v : Vector Byte 16
  /-- The program counter (R13). -/
  pc : Word
  /-- The index register `I` (R17). -/
  i : Word
  /-- The sixteen slots of the call stack (R18). -/
  stack : Vector Word 16
  /-- The stack pointer: the number of return addresses on the stack, 0..16 (R19). -/
  sp : Fin 17
  /-- The delay timer (R20). -/
  dt : Byte
  /-- The sound timer (R21). -/
  st : Byte
  /-- The framebuffer (R25). -/
  fb : Framebuffer
  /-- Memory (R23). -/
  mem : Memory
  deriving DecidableEq, Repr

/-- The fatal conditions (R90): each ends the operation that raised it and is reported to the host. Safe: a step
that faults answers no state, so nothing can be proved of what follows it (log entry 15). -/
inductive Fault where
  /-- An access beyond 0..4095: raised by the fetch of any TICK, by DRW, and by LOAD; `info` is the highest address
  the operation needed (R91). Safe. -/
  | boundsViolation (info : Nat)
  /-- Raised by CALL when `sp = 16`; `info` is `sp` (R92). Safe. -/
  | stackOverflow (info : Nat)
  /-- Raised by RET when `sp = 0`; `info` is `sp` (R93). Safe. -/
  | stackUnderflow (info : Nat)
  deriving DecidableEq, Repr

/-- Why an instruction has no meaning. -/
inductive Refusal where
  /-- An instruction not modelled yet, by its mnemonic: raised only by a refused arm of `exec`. Safe. Every
  instruction has its meaning, so nothing raises it. -/
  | notModelled (mnemonic : String)
  deriving DecidableEq, Repr

/-- The state after RESET with the default, empty RESET_MEM_IMAGE: "all zero/false except program counter", which is
0x200 (R28, R110). -/
def State.reset : State where
  v := Vector.replicate 16 0#8
  pc := Config.origin
  i := 0#16
  stack := Vector.replicate 16 0#16
  sp := 0
  dt := 0#8
  st := 0#8
  fb := Framebuffer.dark
  mem := []

end Sys2Proof.Machine
end

