-- ==== Sys2Proof/Machine/Ops.lean ====
section
/-! DEFINITION. The named operations over memory, registers, stack and framebuffer; raising a fatal condition; and
instruction fetch. Addresses are natural numbers, never reduced before a bounds check (R7, R30). -/

namespace Sys2Proof.Machine

/-- What an instruction or a step answers. -/
abbrev Result := Host.Outcome State Fault Refusal

/-! ### Fatal conditions -/

/-- Raise a fatal condition: the one shared operation by which an instruction or a fetch stops. The hardware has no
trap into software: nothing is saved, nothing is changed and control goes nowhere (R95), so the operation answers the
condition alone; the host's operations keep the state they started from (`abort`, R62). There is no return (R98). -/
def raise (f : Fault) : Result := .fault f

/-- The answer of an operation that either completes in a state or raises. -/
def complete : Except Fault State → Result
  | .ok s => .next s
  | .error f => raise f

/-! ### Memory -/

/-- `mem[a]`: the byte at an address, with no check (R8). -/
def Memory.read : Memory → Nat → Byte
  | [], _ => 0#8
  | (k, b) :: rest, a => if k = a then b else Memory.read rest a

/-- `mem[a] <- v`, with no check, keeping the canonical form: writing 0 removes the entry. -/
def Memory.write : Memory → Nat → Byte → Memory
  | [], a, v => if v = 0#8 then [] else [(a, v)]
  | (k, b) :: rest, a, v =>
    if a < k then (if v = 0#8 then (k, b) :: rest else (a, v) :: (k, b) :: rest)
    else if a = k then (if v = 0#8 then rest else (a, v) :: rest)
    else (k, b) :: Memory.write rest a v

/-- `MemRead(addr, 1)`: checked byte read (R31). -/
def memRead1 (m : Memory) (addr : Nat) : Except Fault Byte :=
  if addr > 4095 then .error (.boundsViolation addr) else .ok (m.read addr)

/-- `MemRead(addr, 2)`: checked big-endian two-byte read (R32). -/
def memRead2 (m : Memory) (addr : Nat) : Except Fault Word :=
  if addr + 1 > 4095 then .error (.boundsViolation (addr + 1))
  else .ok (composeWord (m.read addr) (m.read (addr + 1)))

/-- `MemWrite(addr, 1, v)`: checked byte write (R34). -/
def memWrite1 (m : Memory) (addr : Nat) (v : Byte) : Except Fault Memory :=
  if addr > 4095 then .error (.boundsViolation addr) else .ok (m.write addr v)

/-! ### Registers -/

/-- Read `V[r]` (R10). -/
def State.getV (s : State) (r : RegIdx) : Byte := s.v[r]

/-- `V[r] <- b` (R10). -/
def State.setV (s : State) (r : RegIdx) (b : Byte) : State := { s with v := s.v.set r b }

/-- `pc <- a` (R13). -/
def State.setPc (s : State) (a : Word) : State := { s with pc := a }

/-- `I <- a` (R17). -/
def State.setI (s : State) (a : Word) : State := { s with i := a }

/-- `sp <- n` (R19). -/
def State.setSp (s : State) (n : Fin 17) : State := { s with sp := n }

/-- `dt <- b` (R20). -/
def State.setDt (s : State) (b : Byte) : State := { s with dt := b }

/-- `st <- b` (R21). -/
def State.setSt (s : State) (b : Byte) : State := { s with st := b }

/-- Replace the contents of memory (R23). -/
def State.setMem (s : State) (m : Memory) : State := { s with mem := m }

/-! ### The call stack -/

/-- Read `stack[k]` (R18). -/
def State.getSlot (s : State) (k : Fin 16) : Word := s.stack[k]

/-- `stack[k] <- a` (R18). -/
def State.setSlot (s : State) (k : Fin 16) (a : Word) : State := { s with stack := s.stack.set k a }

/-- Push a return address: StackOverflow at depth 16, before any write; else slot `sp` is written and `sp` rises by 1
(R18, R19, R71). -/
def push (s : State) (a : Word) : Except Fault State :=
  if h : s.sp.val < 16 then
    .ok ((s.setSlot ⟨s.sp, h⟩ a).setSp ⟨s.sp + 1, by omega⟩)
  else .error (.stackOverflow s.sp)

/-- Pop a return address: StackUnderflow at depth 0, before any write; else `sp` falls by 1 and slot `sp` is read and
keeps its value (R18, R19, R72). -/
def pop (s : State) : Except Fault (Word × State) :=
  if h : 0 < s.sp.val then
    .ok (s.getSlot ⟨s.sp - 1, by omega⟩, s.setSp ⟨s.sp - 1, by omega⟩)
  else .error (.stackUnderflow s.sp)

/-! ### The framebuffer -/

/-- Read `fb[r][c]` (R25). -/
def State.getCell (s : State) (r : Fin 32) (c : Fin 64) : Bool := s.fb[r][c]

/-- Replace the framebuffer (R25). -/
def State.setFb (s : State) (f : Framebuffer) : State := { s with fb := f }

/-- `fb[r][c] <- not fb[r][c]` (R81). -/
def State.toggleCell (s : State) (r : Fin 32) (c : Fin 64) : State :=
  s.setFb (s.fb.set r (s.fb[r].set c (!s.getCell r c)))

/-! ### Fetch -/

/-- Fetch: read the two bytes at `pc` and `pc + 1`, advance `pc` by 2, return the word; the bounds check comes before
the advance (R61). -/
def fetch (s : State) : Except Fault (Word × State) :=
  match memRead2 s.mem s.pc.toNat with
  | .ok w => .ok (w, s.setPc (s.pc + 2#16))
  | .error f => .error f

/-- Store an instruction word where the next fetch reads it. Where `pc` is above 4094 no fetch can succeed (R15), so
the fetch also needs `pc` to be moved: to the origin (log entry 18). -/
def placeFetchWord (s : State) (w : Word) : State :=
  let s1 := if s.pc.toNat ≤ 4094 then s else s.setPc Config.origin
  s1.setMem ((s1.mem.write s1.pc.toNat (highByte w)).write (s1.pc.toNat + 1) (lowByte w))

end Sys2Proof.Machine
end

