-- ==== Sys2Proof/Machine/Operands.lean ====
section
/-! DEFINITION. The operand forms: how each field of an instruction becomes the value an instruction uses (R43, R48),
and the coordinates of a draw (R26, R81). The immediate `nn` is used as it stands, at a register's width, and `x` and
`y` select a register directly (`getV`). -/

namespace Sys2Proof.Machine

/-- `zext_16(nnn)`: a 12-bit address, zero-extended; the register's top four bits become 0 (R48). -/
def addrOperand (nnn : Addr12) : Word := nnn.setWidth 16

/-- `V[x] mod 64`: the column of a sprite's origin (R81 step 1). -/
def originCol (s : State) (x : RegIdx) : Nat := (s.getV x).toNat % 64

/-- `V[y] mod 32`: the row of a sprite's origin (R81 step 1). -/
def originRow (s : State) (y : RegIdx) : Nat := (s.getV y).toNat % 32

/-- `I + row`: the address of a sprite's row, in unbounded integers (R43, R7). -/
def rowAddr (s : State) (row : Nat) : Nat := s.i.toNat + row

/-- `(yp + row) mod 32`: the framebuffer row a sprite row lands on (R81, R26). -/
def targetRow (yp row : Nat) : Fin 32 := Fin.ofNat 32 (yp + row)

/-- `(xp + col) mod 64`: the framebuffer column a sprite column lands on (R81, R26). -/
def targetCol (xp col : Nat) : Fin 64 := Fin.ofNat 64 (xp + col)

/-- Bit `7 - col` of a sprite byte: the most significant bit is column 0 (R81). -/
def spriteBit (b : Byte) (col : Nat) : Bool := b.getLsbD (7 - col)

end Sys2Proof.Machine
end

