-- ==== Sys2Proof/Machine/ControlFlow.lean ====
section
/-! DEFINITION. The control-flow instructions (spec/41_control_flow.md): JP, CALL, RET. On entry `pc` is already past
the instruction (R63). -/

namespace Sys2Proof.Machine

/-- JP nnn: `pc <- zext_16(nnn)`; the target is not checked (R70). -/
def execJp (nnn : Addr12) (s : State) : Result := .next (s.setPc (addrOperand nnn))

/-- CALL nnn: push the advanced `pc`, then `pc <- zext_16(nnn)`; StackOverflow when the stack is full (R71). -/
def execCall (nnn : Addr12) (s : State) : Result :=
  complete ((push s s.pc).map (fun t => t.setPc (addrOperand nnn)))

/-- RET: pop into `pc`; StackUnderflow when the stack is empty (R72). -/
def execRet (s : State) : Result :=
  complete ((pop s).map (fun p => p.2.setPc p.1))

end Sys2Proof.Machine
end

