-- ==== Sys2Proof/Machine/Flags.lean ====
section
/-! DEFINITION. The arithmetic with its flag rule, and the one flag of the hardware, the collision flag, which is VF
(R16, R78). -/

namespace Sys2Proof.Machine

/-- `wrap8(a + b)`: the 8-bit sum, exact and then reduced modulo 256; it touches no flag (R7, R77). -/
def addWrap8 (a b : Byte) : Byte := BitVec.ofNat 8 ((a.toNat + b.toNat) % 256)

/-- `V[15] <- 0`: the collision flag is cleared before a draw (R81 step 2). -/
def clearCollision (s : State) : State := s.setV 15 0#8

/-- `if fb[r][c] then V[15] <- 1`: a draw that strikes a lit cell sets the flag, and nothing clears it again within
the draw (R81 step 3). -/
def noteCollision (s : State) (r : Fin 32) (c : Fin 64) : State :=
  if s.getCell r c then s.setV 15 1#8 else s

/-- The saturating decrement of a timer, which stops at 0 (R102, R103). -/
def countDown (b : Byte) : Byte := if b.toNat > 0 then BitVec.ofNat 8 (b.toNat - 1) else b

end Sys2Proof.Machine
end

