-- ==== Sys2Proof/Machine/Display.lean ====
section
/-! DEFINITION. The display instructions (spec/43_display.md): CLS and DRW, the XOR compositor with its collision
detector. -/

namespace Sys2Proof.Machine

/-- CLS: every cell unlit, nothing else touched (R80). -/
def execCls (s : State) : Result := .next (s.setFb Framebuffer.dark)

/-- One set bit of a sprite: note a collision, then toggle the cell (R81 step 3). -/
def drawPixel (s : State) (r : Fin 32) (c : Fin 64) : State := (noteCollision s r c).toggleCell r c

/-- One row of a sprite: the byte's eight bits, most significant first; a bit of 0 leaves its cell alone (R81). -/
def drawRow (yp xp row : Nat) (s : State) : State :=
  (List.range 8).foldl
    (fun t col =>
      if spriteBit (s.mem.read (rowAddr s row)) col then drawPixel t (targetRow yp row) (targetCol xp col) else t)
    s

/-- The `n` rows of a sprite, top row first (R81 step 3). -/
def drawRows (n yp xp : Nat) (s : State) : State :=
  (List.range n).foldl (fun t row => drawRow yp xp row t) s

/-- DRW Vx, Vy, n: origin first (before VF is cleared), then the whole-sprite bounds check, then clear VF and draw
(R81). -/
def execDrw (x y : RegIdx) (n : Fin 16) (s : State) : Result :=
  if n.val > 0 ∧ rowAddr s (n.val - 1) > 4095 then raise (.boundsViolation (rowAddr s (n.val - 1)))
  else .next (drawRows n.val (originRow s y) (originCol s x) (clearCollision s))

end Sys2Proof.Machine
end

