-- ==== Sys2Proof/Machine/Register.lean ====
section
/-! DEFINITION. The register instructions (spec/42_register_ops.md): LD I, LD Vx, ADD Vx. -/

namespace Sys2Proof.Machine

/-- LD Vx, nn: `V[x] <- nn` (R76). -/
def execLdVx (x : RegIdx) (nn : Byte) (s : State) : Result := .next (s.setV x nn)

/-- ADD Vx, nn: `V[x] <- (V[x] + nn) mod 256`; no carry is written (R77). -/
def execAddVx (x : RegIdx) (nn : Byte) (s : State) : Result := .next (s.setV x (addWrap8 (s.getV x) nn))

/-- LD I, nnn: `I <- zext_16(nnn)`; no range check now (R75). -/
def execLdI (nnn : Addr12) (s : State) : Result := .next (s.setI (addrOperand nnn))

end Sys2Proof.Machine
end

