-- ==== Sys2Proof/Machine/Unrecognised.lean ====
section
/-! DEFINITION. Unrecognised opcodes (spec/44_unrecognized.md). -/

namespace Sys2Proof.Machine

/-- An unrecognised opcode: no state is read or written; fetch has already advanced `pc` (R85). The word is carried
only into the optional diagnostic, which TICK reports (`report`, R94). -/
def execUnrecognised (_w : Word) (s : State) : Result := .next s

end Sys2Proof.Machine
end

