-- ==== Sys2Proof/Machine/Step.lean ====
section
/-! DEFINITION. One step of the machine: the state transition of TICK (R60), that is fetch, decode, execute. -/

namespace Sys2Proof.Machine

/-- Fetch one word, decode it, execute it; a fatal condition of either phase ends the step (R60, R62, R96). -/
def step (s : State) : Host.Outcome State Fault Refusal :=
  match fetch s with
  | .ok (w, t) => exec (decode w) t
  | .error f => raise f

/-- The state with a table word stored where `step` fetches its next instruction. -/
def State.withFetchWord (s : State) (nbits w : Nat) : State := placeFetchWord s (tableWord nbits w)

end Sys2Proof.Machine
end

