-- ==== Sys2Proof/Machine/HostOps.lean ====
section
/-! DEFINITION. The host's operations on the block (spec/00_scope.md section 6): RESET, LOAD, TICK with its outcome,
TICK_DELAY, TICK_SOUND, and the two read views. Each is one atomic transition, issued after the previous one has
returned (R40, R117; log entry 9). -/

namespace Sys2Proof.Machine

/-- What a host operation returns: `Ok | Diag(word, at) | Fatal(kind, info)` (R60). -/
inductive OpOutcome where
  /-- The operation completed. -/
  | ok
  /-- The unrecognised-opcode diagnostic: the raw word and the address it was fetched from (R94). -/
  | diag (word : Word) (addr : Nat)
  /-- A fatal condition (R95). -/
  | fatal (f : Fault)
  /-- The machine has no meaning for the instruction; no operation of this model returns it, since every instruction
  has a meaning. -/
  | refused (r : Refusal)
  deriving DecidableEq, Repr

/-- The code of a fatal condition (R90). -/
def Fault.code : Fault → Nat
  | .boundsViolation _ => 1
  | .stackOverflow _ => 2
  | .stackUnderflow _ => 3

/-- The info value reported with a fatal condition (R90). -/
def Fault.info : Fault → Nat
  | .boundsViolation a => a
  | .stackOverflow n => n
  | .stackUnderflow n => n

/-- The code of an operation's outcome, by the table of R90: 0 for Ok, the condition's code for a fatal outcome; the
diagnostic has none ("n/a"), and a refusal is no outcome of the table. -/
def OpOutcome.code : OpOutcome → Option Nat
  | .ok => some 0
  | .diag _ _ => none
  | .fatal f => some f.code
  | .refused _ => none

/-- End an operation with a fatal condition: the state is exactly the state before it, `pc` included, and nothing
remembers the condition (R62, R95). -/
def abort (s0 : State) (f : Fault) : State × OpOutcome := (s0, .fatal f)

/-! ### RESET -/

/-- Memory after RESET: zero, then the image's bytes in order (R110). -/
def imageMemory (image : Config.MemImage) : Memory :=
  image.foldl (fun m c => m.write c.1 c.2) []

/-- The state RESET leaves for an image: every element is written, so no earlier state matters (R110, R28). -/
def State.resetWith (image : Config.MemImage) : State := State.reset.setMem (imageMemory image)

/-! ### LOAD -/

/-- Write a buffer's bytes one after another from an address, each with its check (R113). -/
def writeBuffer : Memory → Nat → List Byte → Except Fault Memory
  | m, _, [] => .ok m
  | m, a, b :: rest =>
    match memWrite1 m a b with
    | .ok m' => writeBuffer m' (a + 1) rest
    | .error f => .error f

/-- LOAD: the whole-buffer fit check before any write, then the bytes; only memory is written (R113). -/
def load (origin : Nat) (buf : List Byte) (s : State) : State × OpOutcome :=
  if origin + buf.length > 4096 then abort s (.boundsViolation (origin + buf.length - 1))
  else
    match writeBuffer s.mem origin buf with
    | .ok m => (s.setMem m, .ok)
    | .error f => abort s f

/-! ### TICK -/

/-- The outcome of a tick that completed: the diagnostic for an unrecognised opcode when it is enabled, else Ok. The
address is `pc` before the tick's advance (R60, R94). -/
def report (diagEnable : Bool) (i : Instr) (a : Word) : OpOutcome :=
  match i with
  | .cls => .ok
  | .ret => .ok
  | .jp _ => .ok
  | .call _ => .ok
  | .ldVx _ _ => .ok
  | .addVx _ _ => .ok
  | .ldI _ => .ok
  | .drw _ _ _ => .ok
  | .unrecognised w => if diagEnable then .diag w a.toNat else .ok

/-- TICK: one fetch, one decode, one execute, with the outcome for the host; a fatal condition leaves the state as it
was (R60, R62). -/
def tick (diagEnable : Bool) (s : State) : State × OpOutcome :=
  match fetch s with
  | .error f => abort s f
  | .ok (w, t) =>
    match exec (decode w) t with
    | .next u => (u, report diagEnable (decode w) s.pc)
    | .fault f => abort s f
    | .refused r => (s, .refused r)

/-! ### The timers -/

/-- TICK_DELAY: `if dt > 0 then dt <- dt - 1` (R102). -/
def tickDelay (s : State) : State := s.setDt (countDown s.dt)

/-- TICK_SOUND: `if st > 0 then st <- st - 1` (R103). -/
def tickSound (s : State) : State := s.setSt (countDown s.st)

/-! ### The operations together -/

/-- The host's state-changing operations; nothing else changes the state (R107). -/
inductive HostOp where
  /-- RESET (R110). -/
  | reset
  /-- LOAD (R113). -/
  | load (origin : Nat) (buf : List Byte)
  /-- TICK (R60). -/
  | tick
  /-- TICK_DELAY (R102). -/
  | tickDelay
  /-- TICK_SOUND (R103). -/
  | tickSound
  deriving DecidableEq, Repr

/-- Perform one host operation: the state after it and its outcome. -/
def perform (p : Config.Params) (op : HostOp) (s : State) : State × OpOutcome :=
  match op with
  | .reset => (State.resetWith p.resetMemImage, .ok)
  | .load origin buf => load origin buf s
  | .tick => tick p.diagEnable s
  | .tickDelay => (tickDelay s, .ok)
  | .tickSound => (tickSound s, .ok)

/-! ### The read views -/

/-- The framebuffer view: the 2048 booleans in row-major order, element `r * 64 + c` (R106, R25). -/
def framebufferView (s : State) : List Bool := s.fb.toList.flatMap Vector.toList

/-- The elements of the state the host can read between operations (R107). -/
inductive Element where
  | v (r : RegIdx)
  | pc
  | i
  | sp
  | stack (k : Fin 16)
  | dt
  | st
  | mem (a : Fin 4096)
  | fb (r : Fin 32) (c : Fin 64)
  deriving DecidableEq, Repr

/-- Inspection: the value of an element, as a number; a lit cell reads as 1. Reading changes nothing (R107). -/
def inspect (e : Element) (s : State) : Nat :=
  match e with
  | .v r => (s.getV r).toNat
  | .pc => s.pc.toNat
  | .i => s.i.toNat
  | .sp => s.sp.val
  | .stack k => (s.getSlot k).toNat
  | .dt => s.dt.toNat
  | .st => s.st.toNat
  | .mem a => (s.mem.read a).toNat
  | .fb r c => (s.getCell r c).toNat

end Sys2Proof.Machine
end

