-- ==== Sys2Proof/Safety.lean ====
section
/-! DEFINITION. The terms claims are stated in: safe steps and runs, what an operation leaves unchanged, which state an
instruction may write, the invariant of reachable states, and the mask of a draw. None of them is used by the machine. -/

namespace Sys2Proof.Machine

/-! ### Safe runs -/

/-- A step that ends in no fatal condition. -/
def SafeStep (s : State) : Prop := ∃ t, step s = .next t

/-- A run of `k` steps that ends in no fatal condition; a run that faults is not a finished run (log entry 15). -/
def RunsSafely (k : Nat) (s : State) : Prop := ∃ t, Host.Core.run Sys2Proof.core k s = .next t

/-- The instruction at `pc`: the big-endian word of the bytes at `pc` and `pc + 1`, decoded (R61, R50). -/
def instrAt (s : State) : Instr :=
  decode (composeWord (s.mem.read s.pc.toNat) (s.mem.read (s.pc.toNat + 1)))

/-- DRW's fatal condition: some row's byte lies outside memory (R81, R90). -/
abbrev spriteOutside (s : State) (n : Fin 16) : Prop := n.val > 0 ∧ s.i.toNat + n.val - 1 > 4095

/-- The fatal condition of a TICK from a state, by the table of rule R90, in the order of rule R96. -/
def fatalCondition (s : State) : Option Fault :=
  if s.pc.toNat + 1 > 4095 then some (.boundsViolation (s.pc.toNat + 1))
  else match instrAt s with
    | .cls => none
    | .ret => if s.sp.val = 0 then some (.stackUnderflow 0) else none
    | .jp _ => none
    | .call _ => if s.sp.val = 16 then some (.stackOverflow 16) else none
    | .ldVx _ _ => none
    | .addVx _ _ => none
    | .ldI _ => none
    | .drw _ _ n => if spriteOutside s n then some (.boundsViolation (s.i.toNat + n.val - 1)) else none
    | .unrecognised _ => none

/-! ### Frames -/

/-- Every element of the state outside `allowed` reads the same before and after: every register, `pc`, `I`, `sp`,
every stack slot, both timers, every byte of memory, every cell (R107's list is the whole state, R27). -/
def UnchangedBut (allowed : Element → Prop) (s t : State) : Prop :=
  ∀ e, ¬ allowed e → inspect e t = inspect e s

/-- The mask of a draw (R82): cell `(r, c)` is `((yp + row) mod 32, (xp + col) mod 64)` for some row `row < n` and
column `col < 8` whose sprite bit `mem[I + row][7 - col]` is 1. -/
abbrev InSprite (s : State) (x y : RegIdx) (n : Fin 16) (r : Fin 32) (c : Fin 64) : Prop :=
  ∃ row < n.val, ∃ col < 8,
    (s.mem.read (s.i.toNat + row)).getLsbD (7 - col) = true ∧
    r.val = ((s.getV y).toNat % 32 + row) % 32 ∧
    c.val = ((s.getV x).toNat % 64 + col) % 64

/-- The elements the execute phase of an instruction may write, from a state: rule R11 for the registers, R13 and R14
for `pc`, R17 for `I`, R18 and R19 for the stack, R84 for the framebuffer. Memory and the timers are in no row. -/
def mayWrite (i : Instr) (s : State) (e : Element) : Prop :=
  match i with
  | .cls => ∃ r c, e = .fb r c
  | .ret => e = .pc ∨ e = .sp
  | .jp _ => e = .pc
  | .call _ => e = .pc ∨ e = .sp ∨ ∃ k : Fin 16, k.val = s.sp.val ∧ e = .stack k
  | .ldVx x _ => e = .v x
  | .addVx x _ => e = .v x
  | .ldI _ => e = .i
  | .drw x y n => e = .v 15 ∨ ∃ r c, InSprite s x y n r c ∧ e = .fb r c
  | .unrecognised _ => False

/-! ### Reachable states -/

/-- The invariant of reachable states of rule R29, with the canonical form of memory. -/
structure State.Inv (s : State) : Prop where
  /-- `0 <= pc <= 4096`. -/
  pc_le : s.pc.toNat ≤ 4096
  /-- `0 <= I <= 4095`. -/
  i_le : s.i.toNat ≤ 4095
  /-- For every `k < sp`, `2 <= stack[k] <= 4096`; `sp <= 16` is in its type. -/
  stack_range : ∀ k : Fin 16, k.val < s.sp.val → 2 ≤ (s.getSlot k).toNat ∧ (s.getSlot k).toNat ≤ 4096
  /-- `dt = 0`. -/
  dt_zero : s.dt = 0#8
  /-- `st = 0`. -/
  st_zero : s.st = 0#8
  /-- Memory is in canonical form (the model's own clause). -/
  mem_wf : s.mem.wf

/-- The states reachable from reset by any sequence of the host's operations (R29), whatever their outcomes. -/
inductive Reachable (p : Config.Params) : State → Prop where
  | reset : Reachable p (State.resetWith p.resetMemImage)
  | op {s : State} (o : HostOp) : Reachable p s → Reachable p (perform p o s).1

/-- Steps from one state to another during which the stack never holds fewer than `d` return addresses. -/
inductive StepsAbove (d : Nat) : State → State → Prop where
  | refl {s : State} : d ≤ s.sp.val → StepsAbove d s s
  | tail {s t u : State} : StepsAbove d s t → step t = .next u → d ≤ u.sp.val → StepsAbove d s u

/-- Two states a program cannot tell apart: they agree on everything but stack slots at or above `sp` (R18). -/
def SameToPrograms (s t : State) : Prop :=
  UnchangedBut (fun e => ∃ k : Fin 16, s.sp.val ≤ k.val ∧ e = .stack k) s t

end Sys2Proof.Machine
end

