-- ==== Sys2Proof/WellFormed.lean ====
section
/-! DEFINITION. When an instruction is well-formed. Every operand's range is in its type, so one check is left: the
word an unrecognised opcode carries is none of the eight recognised patterns (R49, R52). -/

namespace Sys2Proof

/-- The word matches one of the eight recognised patterns of rule R49 (`w & mask = match`). -/
def recognised (w : Word) : Bool :=
  w == 0x00E0#16 || w == 0x00EE#16 ||
  w &&& 0xF000#16 == 0x1000#16 || w &&& 0xF000#16 == 0x2000#16 ||
  w &&& 0xF000#16 == 0x6000#16 || w &&& 0xF000#16 == 0x7000#16 ||
  w &&& 0xF000#16 == 0xA000#16 || w &&& 0xF000#16 == 0xD000#16

/-- Well-formed instructions: exactly those some word decodes to (R50, R52). -/
def Instr.wf : Instr → Bool
  | .cls => true
  | .ret => true
  | .jp _ => true
  | .call _ => true
  | .ldVx _ _ => true
  | .addVx _ _ => true
  | .ldI _ => true
  | .drw _ _ _ => true
  | .unrecognised w => !recognised w

end Sys2Proof
end

