-- ==== Sys2Proof/Certificates/Slice0/Obligations.lean ====
section
/-! DEFINITION. The statements for the provers. Each docstring says which rule of spec/ it formalises; a clause that
rests on a choice names the log entry (notes/assumptions/<n>.md). -/

open Sys2Proof Sys2Proof.Machine

/-! ### Encoding -/

/-- R46: the six fields of a word are its bit-slices, said in numbers: `w[hi:lo]` is the unsigned integer of those
bits (R5), so `nn = {y, n}` and `nnn = {x, y, n} = {x, nn}`. -/
def Obligations.FieldsAreTheWordsBitSlices : Prop :=
  ∀ w : Word,
    (fieldOp w).toNat = w.toNat / 4096 ∧
    (fieldX w).val = w.toNat / 256 % 16 ∧
    (fieldY w).val = w.toNat / 16 % 16 ∧
    (fieldN w).val = w.toNat % 16 ∧
    (fieldNn w).toNat = w.toNat % 256 ∧
    (fieldNnn w).toNat = w.toNat % 4096 ∧
    (fieldNn w).toNat = (fieldY w).val * 16 + (fieldN w).val ∧
    (fieldNnn w).toNat = (fieldX w).val * 256 + (fieldNn w).toNat

/-- Sanity: words written out from rule R49's patterns decode to the instructions they stand for (the opcode values
rest on log entry 1). -/
def Obligations.WrittenOutWordsDecode : Prop :=
  decode 0b0000000011100000#16 = .cls ∧
  decode 0b0000000011101110#16 = .ret ∧
  decode 0b0001001000110100#16 = .jp 0x234 ∧
  decode 0b0010101010111100#16 = .call 0xABC ∧
  decode 0b0110101001010101#16 = .ldVx 10 0x55 ∧
  decode 0b0111111100000001#16 = .addVx 15 0x01 ∧
  decode 0b1010000100100011#16 = .ldI 0x123 ∧
  decode 0b1101000100100101#16 = .drw 1 2 5 ∧
  decode 0b0000000011100001#16 = .unrecognised 0x00E1 ∧
  decode 0b1000000000010100#16 = .unrecognised 0x8014

/-- Decode and encode agree: every well-formed instruction, with every operand value, decodes back from its word (the
opcode values rest on log entry 1). -/
def Obligations.DecodeInvertsEncode : Prop :=
  ∀ i : Instr, i.wf = true → decode (encode i) = i

/-- Every one of the 65536 words decodes to a well-formed instruction whose word it is: each word has one meaning
(R50, R52, R53; the opcode values rest on log entry 1). -/
def Obligations.EncodeInvertsDecode : Prop :=
  ∀ w : Word, (decode w).wf = true ∧ encode (decode w) = w

/-- The decoder picks the first row of the opcode map that a word selects (R49, R50; the values rest on log
entry 1). -/
def Obligations.DecodeTakesFirstMatchingRow : Prop :=
  ∀ w : Word, (opcodeRows.find? (fun row => row.selects w)).map OpcodeRow.mnemonic = some (decode w).mnemonic

/-- "With these eight patterns no two recognised rows overlap" (R50; the values rest on log entry 1). -/
def Obligations.RecognisedRowsNeverOverlap : Prop :=
  ∀ w : Word, ∀ a ∈ recognisedRows, ∀ b ∈ recognisedRows, a.selects w = true → b.selects w = true → a = b

/-- Every instruction is exactly two bytes, high byte first: decoding an instruction's bytes takes exactly those two
and leaves the rest; fewer than two bytes are refused (R45, R33; the opcode values rest on log entry 1). -/
def Obligations.DecodeReadsExactlyTwoBytes : Prop :=
  (∀ (i : Instr) (rest : List Byte), i.wf = true → decodeBytes (encodeBytes i ++ rest) = .ok (i, rest)) ∧
  (∀ bs : List Byte, bs.length < 2 → decodeBytes bs = .error .truncated)

/-! ### Memory -/

/-- R31: a checked byte read. -/
def Obligations.ByteReadIsRangeChecked : Prop :=
  ∀ (m : Memory) (addr : Nat),
    (addr ≤ 4095 → memRead1 m addr = .ok (m.read addr)) ∧
    (4095 < addr → memRead1 m addr = .error (.boundsViolation addr))

/-- A checked two-byte read: big-endian, both bytes inside memory, the address never reduced (R32, R33, R30; the info
of the fault rests on log entry 6, the unbounded sum on log entry 5). -/
def Obligations.WordReadIsBigEndian : Prop :=
  ∀ (m : Memory) (addr : Nat),
    (addr ≤ 4094 → ∃ w, memRead2 m addr = .ok w ∧
      w.toNat = (m.read addr).toNat * 256 + (m.read (addr + 1)).toNat) ∧
    (4095 ≤ addr → memRead2 m addr = .error (.boundsViolation (addr + 1)))

/-- R34: a checked byte write: the byte written is read back and every other byte reads as before; an address that does
not exist is a BoundsViolation. (Memory's canonical form, log entry 17, is a premise: every operation keeps it.) -/
def Obligations.ByteWriteStoresOneByte : Prop :=
  ∀ (m : Memory) (addr : Nat) (v : Byte), m.wf →
    (addr ≤ 4095 → ∃ m', memWrite1 m addr v = .ok m' ∧ m'.read addr = v ∧
      ∀ a, a ≠ addr → m'.read a = m.read a) ∧
    (4095 < addr → memWrite1 m addr v = .error (.boundsViolation addr))

/-- The model's own form of memory (log entry 17): two canonical memories that read alike at every address that exists
are the same data. -/
def Obligations.CanonicalMemoryIsUnique : Prop :=
  ∀ m m' : Memory, m.wf → m'.wf → (∀ a, a ≤ 4095 → m.read a = m'.read a) → m = m'

/-! ### Fetch and step -/

/-- R61: for every valid `pc` (0..4094, odd ones too, log entry 13) fetch answers the big-endian word of the two bytes
at the pre-advance `pc`, advances `pc` by exactly 2 and changes nothing else; beyond, it faults and has moved nothing
(the info `pc + 1` rests on the spec's decision D8, log entry 6, and that the sum never wraps on D7, log entry 5). -/
def Obligations.FetchComposesAndAdvances : Prop :=
  ∀ s : State,
    (s.pc.toNat ≤ 4094 → ∃ w t, fetch s = .ok (w, t) ∧
      w.toNat = (s.mem.read s.pc.toNat).toNat * 256 + (s.mem.read (s.pc.toNat + 1)).toNat ∧
      t.pc.toNat = s.pc.toNat + 2 ∧ UnchangedBut (fun e => e = .pc) s t) ∧
    (4095 ≤ s.pc.toNat → fetch s = .error (.boundsViolation (s.pc.toNat + 1)))

/-- A step runs the decoded instruction: where the two bytes at `pc` are a well-formed instruction's, the step is its
execute phase from the state whose `pc` is advanced by 2 (R60, R61, R63; the opcode values rest on log entry 1). -/
def Obligations.StepRunsTheDecodedInstruction : Prop :=
  ∀ (s : State) (i : Instr), i.wf = true → s.pc.toNat ≤ 4094 →
    s.mem.read s.pc.toNat = highByte (encode i) → s.mem.read (s.pc.toNat + 1) = lowByte (encode i) →
    step s = exec i (s.setPc (s.pc + 2#16))

/-- A step stops exactly on the conditions of the table of rule R90, found in the order of rule R96, with the info it
names; otherwise it completes, and nothing is ever refused (infos: log entry 6; address sums: log entry 5; the range of
`sp`: log entry 4; DRW's check of the whole sprite: log entry 3). -/
def Obligations.StepStopsExactlyOnFatalConditions : Prop :=
  ∀ s : State,
    (∀ f, step s = .fault f ↔ fatalCondition s = some f) ∧
    (SafeStep s ↔ fatalCondition s = none) ∧
    (∀ r, step s ≠ .refused r)

/-! ### Control flow -/

/-- R70: JP sets `pc` to the zero-extended target, from any state, and writes nothing else. -/
def Obligations.JpSetsPc : Prop :=
  ∀ (nnn : Addr12) (s : State), ∃ t, exec (.jp nnn) s = .next t ∧
    t.pc.toNat = nnn.toNat ∧ UnchangedBut (fun e => e = .pc) s t

/-- CALL with room on the stack: slot `sp` receives the `pc` the execute phase sees (already past the instruction),
`sp` rises by 1, `pc` becomes the target, nothing else changes (R71, R74; which slot is written rests on the spec's
decision D6, log entry 4). -/
def Obligations.CallPushesAdvancedPc : Prop :=
  ∀ (nnn : Addr12) (s : State) (k : Fin 16), s.sp.val = k.val →
    ∃ t, exec (.call nnn) s = .next t ∧
      t.pc.toNat = nnn.toNat ∧ t.sp.val = s.sp.val + 1 ∧ t.getSlot k = s.pc ∧
      UnchangedBut (fun e => e = .pc ∨ e = .sp ∨ e = .stack k) s t

/-- CALL on a full stack stops with StackOverflow, before any write (R71, R92; the info rests on log entry 6, the
range 0..16 of `sp` on log entry 4). -/
def Obligations.CallOverflowsAtSixteen : Prop :=
  ∀ (nnn : Addr12) (s : State), s.sp.val = 16 → exec (.call nnn) s = .fault (.stackOverflow 16)

/-- RET with an entry on the stack: `sp` falls by 1, `pc` becomes the popped slot, all 16 bits, and the slot keeps its
value, as does everything else (R72; the slot discipline rests on the spec's decision D6, log entry 4). -/
def Obligations.RetPopsIntoPc : Prop :=
  ∀ (s : State) (k : Fin 16), s.sp.val = k.val + 1 →
    ∃ t, exec .ret s = .next t ∧
      t.pc = s.getSlot k ∧ t.sp.val + 1 = s.sp.val ∧ UnchangedBut (fun e => e = .pc ∨ e = .sp) s t

/-- RET on an empty stack stops with StackUnderflow (R72, R93; the info rests on log entry 6, that an
empty stack is `sp = 0` on log entry 4). -/
def Obligations.RetUnderflowsAtZero : Prop :=
  ∀ s : State, s.sp.val = 0 → exec .ret s = .fault (.stackUnderflow 0)

/-- Call and return round trip (R73, which the spec derives from R71 and R72): after a CALL executed at address `B`,
whatever steps follow while the stack stays at least that deep, the RET executed at that depth completes with
`pc = B + 2` and `sp` as it was before the CALL (the slot discipline rests on the spec's decision D6, log entry 4). -/
def Obligations.CallReturnRoundTrip : Prop :=
  ∀ (s t u : State) (nnn : Addr12),
    instrAt s = .call nnn → step s = .next t →
    StepsAbove (s.sp.val + 1) t u → u.sp.val = s.sp.val + 1 →
    u.pc.toNat ≤ 4094 → instrAt u = .ret →
    ∃ v, step u = .next v ∧ v.pc.toNat = s.pc.toNat + 2 ∧ v.sp = s.sp

/-- A jump to itself leaves the whole state as it was (R70's corner case, R67). -/
def Obligations.JumpToSelfChangesNothing : Prop :=
  ∀ (s : State) (nnn : Addr12), s.pc.toNat ≤ 4094 → instrAt s = .jp nnn → nnn.toNat = s.pc.toNat →
    step s = .next s

/-! ### Register instructions -/

/-- R75: LD I sets `I` to the zero-extended immediate, from any state, and writes nothing else. -/
def Obligations.LdISetsIndex : Prop :=
  ∀ (nnn : Addr12) (s : State), ∃ t, exec (.ldI nnn) s = .next t ∧
    t.i.toNat = nnn.toNat ∧ UnchangedBut (fun e => e = .i) s t

/-- R76: LD Vx sets its register (VF like any other) to the immediate and writes nothing else. -/
def Obligations.LdVxSetsRegister : Prop :=
  ∀ (x : RegIdx) (nn : Byte) (s : State), ∃ t, exec (.ldVx x nn) s = .next t ∧
    t.getV x = nn ∧ UnchangedBut (fun e => e = .v x) s t

/-- R77: ADD Vx adds the immediate modulo 256 into its register and writes nothing else: no carry reaches VF, and with
`x = 15` VF holds the sum. -/
def Obligations.AddVxWrapsWithoutCarry : Prop :=
  ∀ (x : RegIdx) (nn : Byte) (s : State), ∃ t, exec (.addVx x nn) s = .next t ∧
    (t.getV x).toNat = ((s.getV x).toNat + nn.toNat) % 256 ∧ UnchangedBut (fun e => e = .v x) s t

/-! ### Display instructions -/

/-- R80: CLS makes every cell unlit, from any framebuffer, and touches no other state. -/
def Obligations.ClsClearsEveryCell : Prop :=
  ∀ s : State, ∃ t, exec .cls s = .next t ∧
    (∀ r c, t.getCell r c = false) ∧ UnchangedBut (fun e => ∃ r c, e = .fb r c) s t

/-- DRW whose sprite lies inside memory (or has no rows) completes with the closed form of rule R82, which the spec
derives from R81: every cell is XORed with the mask, VF is 1 if some cell of the mask was lit and 0 otherwise, and
every other element, `pc` and `I` among them, is unchanged. The coordinates come from the registers before VF is
cleared. -/
def Obligations.DrwXorsTheSpriteMask : Prop :=
  ∀ (x y : RegIdx) (n : Fin 16) (s : State), (n.val = 0 ∨ s.i.toNat + n.val - 1 ≤ 4095) →
    ∃ t, exec (.drw x y n) s = .next t ∧
      (∀ r c, t.getCell r c = (s.getCell r c ^^ decide (InSprite s x y n r c))) ∧
      t.getV 15 = (if ∃ r c, InSprite s x y n r c ∧ s.getCell r c = true then 1#8 else 0#8) ∧
      UnchangedBut (fun e => e = .v 15 ∨ ∃ r c, e = .fb r c) s t

/-- DRW stops exactly when some row's byte lies outside memory, with the highest address it needed (R81, R91; one check
for the whole sprite rests on the spec's decision D5, log entry 3, the info on log entry 6, the unbounded sum on log
entry 5). -/
def Obligations.DrwFaultsExactlyOutsideMemory : Prop :=
  ∀ (x y : RegIdx) (n : Fin 16) (s : State) (f : Fault),
    exec (.drw x y n) s = .fault f ↔
      n.val > 0 ∧ s.i.toNat + n.val - 1 > 4095 ∧ f = .boundsViolation (s.i.toNat + n.val - 1)

/-- XOR self-inverse (R83, which the spec derives from R82): the same draw again, with the coordinates unchanged in
value, completes and restores every cell; and if the mask is not empty and was unlit before the first draw, the second
leaves VF = 1. -/
def Obligations.DrwTwiceRestoresTheDisplay : Prop :=
  ∀ (x y : RegIdx) (n : Fin 16) (s t : State), exec (.drw x y n) s = .next t →
    t.getV x = s.getV x → t.getV y = s.getV y →
    ∃ u, exec (.drw x y n) t = .next u ∧ (∀ r c, u.getCell r c = s.getCell r c) ∧
      ((∃ r c, InSprite s x y n r c) → (∀ r c, InSprite s x y n r c → s.getCell r c = false) → u.getV 15 = 1#8)

/-! ### Unrecognised opcodes -/

/-- R85 in the execute phase: an unrecognised opcode completes from any state and changes nothing (`pc` was advanced by
the fetch). -/
def Obligations.UnrecognisedOpcodeChangesNothing : Prop :=
  ∀ (w : Word) (s : State), exec (.unrecognised w) s = .next s

/-- R85 over a whole tick: a fetched word that is none of the eight patterns advances `pc` by exactly 2 and changes
nothing else; the tick returns Ok, or the diagnostic with the word and its own address when DIAG_ENABLE (that the
address is the one before the advance rests on the spec's decision D9, log entry 7, and the opcode values on log
entry 1). -/
def Obligations.UnrecognisedTickOnlyAdvancesPc : Prop :=
  ∀ (diagEnable : Bool) (s : State) (w : Word), recognised w = false → s.pc.toNat ≤ 4094 →
    s.mem.read s.pc.toNat = highByte w → s.mem.read (s.pc.toNat + 1) = lowByte w →
    ∃ t, tick diagEnable s = (t, if diagEnable then .diag w s.pc.toNat else .ok) ∧
      t.pc.toNat = s.pc.toNat + 2 ∧ UnchangedBut (fun e => e = .pc) s t

/-! ### Whole-machine rules -/

/-- The frame of every instruction at once: an instruction that completes changes no element outside those its rule
lets it write (the tables of R11, R14 and R22, and R84), and never memory or a timer. That CALL may write slot `sp` and
no other, and RET no slot, rests on the spec's decision D6 (log entry 4). -/
def Obligations.InstructionsWriteOnlyTheirElements : Prop :=
  ∀ (i : Instr) (s t : State), exec i s = .next t → UnchangedBut (mayWrite i s) s t ∧ t.mem = s.mem

/-- R12: DRW always leaves 0 or 1 in VF, whatever VF held; every other instruction never changes VF unless its `x`
field is 15. -/
def Obligations.VfRolesNeverMix : Prop :=
  ∀ (i : Instr) (s t : State), exec i s = .next t →
    match i with
    | .drw _ _ _ => t.getV 15 = 0#8 ∨ t.getV 15 = 1#8
    | .ldVx x _ => x ≠ 15 → t.getV 15 = s.getV 15
    | .addVx x _ => x ≠ 15 → t.getV 15 = s.getV 15
    | .cls => t.getV 15 = s.getV 15
    | .ret => t.getV 15 = s.getV 15
    | .jp _ => t.getV 15 = s.getV 15
    | .call _ => t.getV 15 = s.getV 15
    | .ldI _ => t.getV 15 = s.getV 15
    | .unrecognised _ => t.getV 15 = s.getV 15

/-- How a tick moves `pc` (the table of R14): from address `a`, JP and CALL to the target, RET to the popped entry,
every other instruction to `a + 2`; a fatal tick leaves it at `a` (that last clause rests on the spec's decision D4,
log entry 2; which slot holds CALL's `a + 2` and which one RET pops rest on D6, log entry 4). -/
def Obligations.TickMovesPcByTheTable : Prop :=
  ∀ (diagEnable : Bool) (s : State),
    (∀ f, (tick diagEnable s).2 = .fatal f → (tick diagEnable s).1.pc = s.pc) ∧
    ((∀ f, (tick diagEnable s).2 ≠ .fatal f) →
      match instrAt s with
      | .jp nnn => (tick diagEnable s).1.pc.toNat = nnn.toNat
      | .call nnn => (tick diagEnable s).1.pc.toNat = nnn.toNat ∧
          ∃ k : Fin 16, k.val = s.sp.val ∧ ((tick diagEnable s).1.getSlot k).toNat = s.pc.toNat + 2
      | .ret => ∃ k : Fin 16, k.val + 1 = s.sp.val ∧ (tick diagEnable s).1.pc = s.getSlot k
      | .cls => (tick diagEnable s).1.pc.toNat = s.pc.toNat + 2
      | .ldVx _ _ => (tick diagEnable s).1.pc.toNat = s.pc.toNat + 2
      | .addVx _ _ => (tick diagEnable s).1.pc.toNat = s.pc.toNat + 2
      | .ldI _ => (tick diagEnable s).1.pc.toNat = s.pc.toNat + 2
      | .drw _ _ _ => (tick diagEnable s).1.pc.toNat = s.pc.toNat + 2
      | .unrecognised _ => (tick diagEnable s).1.pc.toNat = s.pc.toNat + 2)

/-- No instruction reads a timer (R20, R21, R101): a step from a state with other timers stops in the same way or
completes in the same state with those other timers. -/
def Obligations.TimersDoNotInfluenceSteps : Prop :=
  ∀ (s : State) (d e : Byte),
    step ((s.setDt d).setSt e) =
      match step s with
      | .next t => .next ((t.setDt d).setSt e)
      | .fault f => .fault f
      | .refused r => .refused r

/-- A program cannot observe stack slots at or above `sp` (R18; the slot discipline rests on the spec's decision D6,
log entry 4): from two states that agree on everything else, a step stops in the same way or completes in states that
again agree on everything else. -/
def Obligations.SlotsAboveSpAreUnobservable : Prop :=
  ∀ s s' : State, SameToPrograms s s' →
    (∀ f, step s = .fault f → step s' = .fault f) ∧
    (∀ t, step s = .next t → ∃ t', step s' = .next t' ∧ SameToPrograms t t')

/-! ### Reset and invariants -/

/-- R28: after RESET, from any state and for any image, every register, stack slot and timer is 0, `pc` is 0x200,
every cell is unlit, and every byte of memory is 0 but for the addresses RESET_MEM_IMAGE names, which hold the last
byte it gives them (written in order, R110); with the empty image the state is State.reset. That the image is an
argument of RESET and State.reset the state for the empty one is the model's choice within decision D10 (log entry 8). -/
def Obligations.ResetLeavesRuleR28 : Prop :=
  (∀ (p : Config.Params) (s : State), ∃ t, perform p .reset s = (t, .ok) ∧
    (∀ r, t.getV r = 0#8) ∧ t.pc.toNat = 0x200 ∧ t.i = 0#16 ∧ (∀ k, t.getSlot k = 0#16) ∧ t.sp.val = 0 ∧
    t.dt = 0#8 ∧ t.st = 0#8 ∧ (∀ r c, t.getCell r c = false) ∧
    (∀ a : Fin 4096, t.mem.read a.val =
      ((p.resetMemImage.reverse.find? (fun c => c.1 == a)).map Prod.snd).getD 0#8) ∧
    (p.resetMemImage = [] → t = State.reset)) ∧
  (∀ e, inspect e State.reset = if e = .pc then 0x200 else 0)

/-- The reset state (for the empty image, log entry 8) meets the invariant of R29, with the model's own clause on memory
(log entry 17). -/
def Obligations.ResetMeetsTheInvariant : Prop :=
  State.reset.Inv

/-- Every step keeps the invariant of R29, which the spec derives: `pc` stays in 0..4096, `I` in 0..4095, the pushed
entries in 2..4096 (slots below `sp`: log entry 4), the timers at 0, and memory in canonical form (the model's own
clause, log entry 17). -/
def Obligations.StepKeepsTheInvariant : Prop :=
  ∀ s t : State, s.Inv → step s = .next t → t.Inv

/-- R29, which the spec derives: the invariant holds in every state reachable from reset by any sequence of RESET, LOAD,
TICK, TICK_DELAY and TICK_SOUND, for every value of the two parameters. The clause on memory's canonical form is the
model's own (log entry 17); that a fatal operation leaves a state at all, the one before it, rests on the spec's
decision D4 (log entry 2); slots below `sp` on D6 (log entry 4); that nothing sets a timer on D16 (log entry 14). -/
def Obligations.ReachableStatesMeetTheInvariant : Prop :=
  ∀ (p : Config.Params) (s : State), Reachable p s → s.Inv

/-! ### The host's operations -/

/-- TICK by rule R60: on a fatal condition the state is the one before the tick (the spec's decision D4, log entry 2);
otherwise the state is the step's, and the outcome is Ok, or the diagnostic with the word and its address for an
unrecognised opcode when DIAG_ENABLE (D9, log entry 7). -/
def Obligations.TickReportsByRuleR60 : Prop :=
  ∀ (diagEnable : Bool) (s : State),
    (∀ f, fatalCondition s = some f → tick diagEnable s = (s, .fatal f)) ∧
    (fatalCondition s = none → ∃ t, step s = .next t ∧
      tick diagEnable s = (t,
        match instrAt s with
        | .cls => .ok
        | .ret => .ok
        | .jp _ => .ok
        | .call _ => .ok
        | .ldVx _ _ => .ok
        | .addVx _ _ => .ok
        | .ldI _ => .ok
        | .drw _ _ _ => .ok
        | .unrecognised w => if diagEnable then .diag w s.pc.toNat else .ok))

/-- DIAG_ENABLE affects only the outcome, never the new state (R64, R94). -/
def Obligations.DiagnosticNeverChangesState : Prop :=
  ∀ s : State, (tick true s).1 = (tick false s).1

/-- A fatal tick or load leaves the whole state as it was, so a tick issued again raises the same condition again
(R62, R95, R98; the spec's decision D4, log entry 2, and D13 for LOAD, log entry 11). -/
def Obligations.FatalOperationsLeaveNoTrace : Prop :=
  ∀ (p : Config.Params) (o : HostOp) (s : State) (f : Fault), (perform p o s).2 = .fatal f →
    (perform p o s).1 = s ∧ (perform p o (perform p o s).1).2 = .fatal f

/-- R102: TICK_DELAY takes 1 from the delay timer unless it is 0, where it changes nothing; no other state is written
and the operation has no outcome but Ok. -/
def Obligations.TickDelayCountsDownToZero : Prop :=
  ∀ (p : Config.Params) (s : State), ∃ t, perform p .tickDelay s = (t, .ok) ∧
    (s.dt.toNat > 0 → t.dt.toNat + 1 = s.dt.toNat) ∧ (s.dt.toNat = 0 → t = s) ∧
    UnchangedBut (fun e => e = .dt) s t

/-- R103: TICK_SOUND takes 1 from the sound timer unless it is 0, where it changes nothing; no other state is written
and the operation has no outcome but Ok. -/
def Obligations.TickSoundCountsDownToZero : Prop :=
  ∀ (p : Config.Params) (s : State), ∃ t, perform p .tickSound s = (t, .ok) ∧
    (s.st.toNat > 0 → t.st.toNat + 1 = s.st.toNat) ∧ (s.st.toNat = 0 → t = s) ∧
    UnchangedBut (fun e => e = .st) s t

/-- LOAD of a buffer that fits writes exactly its bytes and nothing else, `pc` among the unchanged (R113; the fit test
rests on the spec's decision D13, log entry 11). -/
def Obligations.LoadWritesExactlyTheBuffer : Prop :=
  ∀ (p : Config.Params) (origin : Nat) (buf : List Byte) (s : State), s.mem.wf → origin + buf.length ≤ 4096 →
    ∃ t, perform p (.load origin buf) s = (t, .ok) ∧
      (∀ (k : Nat) (h : k < buf.length), t.mem.read (origin + k) = buf[k]) ∧
      (∀ a, a < origin ∨ origin + buf.length ≤ a → t.mem.read a = s.mem.read a) ∧
      UnchangedBut (fun e => ∃ a : Fin 4096, origin ≤ a.val ∧ a.val < origin + buf.length ∧ e = .mem a) s t

/-- LOAD of a buffer that does not fit is a BoundsViolation and writes nothing, not even the part that would fit (R113,
R91; the spec's decision D13, log entry 11; the info rests on log entry 6). -/
def Obligations.LoadThatDoesNotFitWritesNothing : Prop :=
  ∀ (p : Config.Params) (origin : Nat) (buf : List Byte) (s : State), 4096 < origin + buf.length →
    perform p (.load origin buf) s = (s, .fatal (.boundsViolation (origin + buf.length - 1)))

/-- Loaded code is fetched with nothing else required (R42, R116; the spec's decision D13, log entry 11): after a LOAD
that covers the bytes at `pc` and `pc + 1`, the next step executes the word they make. -/
def Obligations.LoadedCodeIsFetchedNext : Prop :=
  ∀ (p : Config.Params) (s : State) (origin k : Nat) (buf : List Byte) (h : k + 1 < buf.length),
    s.mem.wf → origin + buf.length ≤ 4096 → s.pc.toNat = origin + k →
    ∃ t, perform p (.load origin buf) s = (t, .ok) ∧
      step t = exec (decode (composeWord buf[k] buf[k + 1])) (t.setPc (s.pc + 2#16))

/-- The framebuffer view is the 2048 cells in row-major order, element `r * 64 + c` (R106, R25; the format rests on the
spec's decision D14, log entry 12). -/
def Obligations.FramebufferViewIsRowMajor : Prop :=
  ∀ s : State, (framebufferView s).length = 2048 ∧
    ∀ (r : Fin 32) (c : Fin 64), (framebufferView s)[r.val * 64 + c.val]? = some (s.getCell r c)

/-- No hidden state (R27, R107): two states with canonical memory that the host cannot tell apart by inspection are
the same state (canonical memory is the model's own form, log entry 17; that the host reads every element is D12, log
entry 10). -/
def Obligations.InspectionSeesTheWholeState : Prop :=
  ∀ s t : State, s.mem.wf → t.mem.wf → (∀ e, inspect e s = inspect e t) → s = t
end

