-- ==== Sys2Proof/Laws/State.lean ====
section
/-! SUPPORT. One lemma per field per update of State, by rfl, and the reads of one element after a write of another. -/

namespace Sys2Proof.Machine

variable (s : State)

/-! ### setV -/

@[simp] theorem State.setV_v (r : RegIdx) (b : Byte) : (s.setV r b).v = s.v.set r b := rfl
@[simp] theorem State.setV_pc (r : RegIdx) (b : Byte) : (s.setV r b).pc = s.pc := rfl
@[simp] theorem State.setV_i (r : RegIdx) (b : Byte) : (s.setV r b).i = s.i := rfl
@[simp] theorem State.setV_stack (r : RegIdx) (b : Byte) : (s.setV r b).stack = s.stack := rfl
@[simp] theorem State.setV_sp (r : RegIdx) (b : Byte) : (s.setV r b).sp = s.sp := rfl
@[simp] theorem State.setV_dt (r : RegIdx) (b : Byte) : (s.setV r b).dt = s.dt := rfl
@[simp] theorem State.setV_st (r : RegIdx) (b : Byte) : (s.setV r b).st = s.st := rfl
@[simp] theorem State.setV_fb (r : RegIdx) (b : Byte) : (s.setV r b).fb = s.fb := rfl
@[simp] theorem State.setV_mem (r : RegIdx) (b : Byte) : (s.setV r b).mem = s.mem := rfl
@[simp] theorem State.getSlot_setV (r : RegIdx) (b : Byte) (j : Fin 16) : (s.setV r b).getSlot j = s.getSlot j := rfl
@[simp] theorem State.getCell_setV (r : RegIdx) (b : Byte) (y : Fin 32) (x : Fin 64) : (s.setV r b).getCell y x = s.getCell y x := rfl

/-! ### setPc -/

@[simp] theorem State.setPc_v (a : Word) : (s.setPc a).v = s.v := rfl
@[simp] theorem State.setPc_pc (a : Word) : (s.setPc a).pc = a := rfl
@[simp] theorem State.setPc_i (a : Word) : (s.setPc a).i = s.i := rfl
@[simp] theorem State.setPc_stack (a : Word) : (s.setPc a).stack = s.stack := rfl
@[simp] theorem State.setPc_sp (a : Word) : (s.setPc a).sp = s.sp := rfl
@[simp] theorem State.setPc_dt (a : Word) : (s.setPc a).dt = s.dt := rfl
@[simp] theorem State.setPc_st (a : Word) : (s.setPc a).st = s.st := rfl
@[simp] theorem State.setPc_fb (a : Word) : (s.setPc a).fb = s.fb := rfl
@[simp] theorem State.setPc_mem (a : Word) : (s.setPc a).mem = s.mem := rfl
@[simp] theorem State.getV_setPc (a : Word) (q : RegIdx) : (s.setPc a).getV q = s.getV q := rfl
@[simp] theorem State.getSlot_setPc (a : Word) (j : Fin 16) : (s.setPc a).getSlot j = s.getSlot j := rfl
@[simp] theorem State.getCell_setPc (a : Word) (y : Fin 32) (x : Fin 64) : (s.setPc a).getCell y x = s.getCell y x := rfl

/-! ### setI -/

@[simp] theorem State.setI_v (a : Word) : (s.setI a).v = s.v := rfl
@[simp] theorem State.setI_pc (a : Word) : (s.setI a).pc = s.pc := rfl
@[simp] theorem State.setI_i (a : Word) : (s.setI a).i = a := rfl
@[simp] theorem State.setI_stack (a : Word) : (s.setI a).stack = s.stack := rfl
@[simp] theorem State.setI_sp (a : Word) : (s.setI a).sp = s.sp := rfl
@[simp] theorem State.setI_dt (a : Word) : (s.setI a).dt = s.dt := rfl
@[simp] theorem State.setI_st (a : Word) : (s.setI a).st = s.st := rfl
@[simp] theorem State.setI_fb (a : Word) : (s.setI a).fb = s.fb := rfl
@[simp] theorem State.setI_mem (a : Word) : (s.setI a).mem = s.mem := rfl
@[simp] theorem State.getV_setI (a : Word) (q : RegIdx) : (s.setI a).getV q = s.getV q := rfl
@[simp] theorem State.getSlot_setI (a : Word) (j : Fin 16) : (s.setI a).getSlot j = s.getSlot j := rfl
@[simp] theorem State.getCell_setI (a : Word) (y : Fin 32) (x : Fin 64) : (s.setI a).getCell y x = s.getCell y x := rfl

/-! ### setSlot -/

@[simp] theorem State.setSlot_v (k : Fin 16) (a : Word) : (s.setSlot k a).v = s.v := rfl
@[simp] theorem State.setSlot_pc (k : Fin 16) (a : Word) : (s.setSlot k a).pc = s.pc := rfl
@[simp] theorem State.setSlot_i (k : Fin 16) (a : Word) : (s.setSlot k a).i = s.i := rfl
@[simp] theorem State.setSlot_stack (k : Fin 16) (a : Word) : (s.setSlot k a).stack = s.stack.set k a := rfl
@[simp] theorem State.setSlot_sp (k : Fin 16) (a : Word) : (s.setSlot k a).sp = s.sp := rfl
@[simp] theorem State.setSlot_dt (k : Fin 16) (a : Word) : (s.setSlot k a).dt = s.dt := rfl
@[simp] theorem State.setSlot_st (k : Fin 16) (a : Word) : (s.setSlot k a).st = s.st := rfl
@[simp] theorem State.setSlot_fb (k : Fin 16) (a : Word) : (s.setSlot k a).fb = s.fb := rfl
@[simp] theorem State.setSlot_mem (k : Fin 16) (a : Word) : (s.setSlot k a).mem = s.mem := rfl
@[simp] theorem State.getV_setSlot (k : Fin 16) (a : Word) (q : RegIdx) : (s.setSlot k a).getV q = s.getV q := rfl
@[simp] theorem State.getCell_setSlot (k : Fin 16) (a : Word) (y : Fin 32) (x : Fin 64) : (s.setSlot k a).getCell y x = s.getCell y x := rfl

/-! ### setSp -/

@[simp] theorem State.setSp_v (n : Fin 17) : (s.setSp n).v = s.v := rfl
@[simp] theorem State.setSp_pc (n : Fin 17) : (s.setSp n).pc = s.pc := rfl
@[simp] theorem State.setSp_i (n : Fin 17) : (s.setSp n).i = s.i := rfl
@[simp] theorem State.setSp_stack (n : Fin 17) : (s.setSp n).stack = s.stack := rfl
@[simp] theorem State.setSp_sp (n : Fin 17) : (s.setSp n).sp = n := rfl
@[simp] theorem State.setSp_dt (n : Fin 17) : (s.setSp n).dt = s.dt := rfl
@[simp] theorem State.setSp_st (n : Fin 17) : (s.setSp n).st = s.st := rfl
@[simp] theorem State.setSp_fb (n : Fin 17) : (s.setSp n).fb = s.fb := rfl
@[simp] theorem State.setSp_mem (n : Fin 17) : (s.setSp n).mem = s.mem := rfl
@[simp] theorem State.getV_setSp (n : Fin 17) (q : RegIdx) : (s.setSp n).getV q = s.getV q := rfl
@[simp] theorem State.getSlot_setSp (n : Fin 17) (j : Fin 16) : (s.setSp n).getSlot j = s.getSlot j := rfl
@[simp] theorem State.getCell_setSp (n : Fin 17) (y : Fin 32) (x : Fin 64) : (s.setSp n).getCell y x = s.getCell y x := rfl

/-! ### setDt -/

@[simp] theorem State.setDt_v (b : Byte) : (s.setDt b).v = s.v := rfl
@[simp] theorem State.setDt_pc (b : Byte) : (s.setDt b).pc = s.pc := rfl
@[simp] theorem State.setDt_i (b : Byte) : (s.setDt b).i = s.i := rfl
@[simp] theorem State.setDt_stack (b : Byte) : (s.setDt b).stack = s.stack := rfl
@[simp] theorem State.setDt_sp (b : Byte) : (s.setDt b).sp = s.sp := rfl
@[simp] theorem State.setDt_dt (b : Byte) : (s.setDt b).dt = b := rfl
@[simp] theorem State.setDt_st (b : Byte) : (s.setDt b).st = s.st := rfl
@[simp] theorem State.setDt_fb (b : Byte) : (s.setDt b).fb = s.fb := rfl
@[simp] theorem State.setDt_mem (b : Byte) : (s.setDt b).mem = s.mem := rfl
@[simp] theorem State.getV_setDt (b : Byte) (q : RegIdx) : (s.setDt b).getV q = s.getV q := rfl
@[simp] theorem State.getSlot_setDt (b : Byte) (j : Fin 16) : (s.setDt b).getSlot j = s.getSlot j := rfl
@[simp] theorem State.getCell_setDt (b : Byte) (y : Fin 32) (x : Fin 64) : (s.setDt b).getCell y x = s.getCell y x := rfl

/-! ### setSt -/

@[simp] theorem State.setSt_v (b : Byte) : (s.setSt b).v = s.v := rfl
@[simp] theorem State.setSt_pc (b : Byte) : (s.setSt b).pc = s.pc := rfl
@[simp] theorem State.setSt_i (b : Byte) : (s.setSt b).i = s.i := rfl
@[simp] theorem State.setSt_stack (b : Byte) : (s.setSt b).stack = s.stack := rfl
@[simp] theorem State.setSt_sp (b : Byte) : (s.setSt b).sp = s.sp := rfl
@[simp] theorem State.setSt_dt (b : Byte) : (s.setSt b).dt = s.dt := rfl
@[simp] theorem State.setSt_st (b : Byte) : (s.setSt b).st = b := rfl
@[simp] theorem State.setSt_fb (b : Byte) : (s.setSt b).fb = s.fb := rfl
@[simp] theorem State.setSt_mem (b : Byte) : (s.setSt b).mem = s.mem := rfl
@[simp] theorem State.getV_setSt (b : Byte) (q : RegIdx) : (s.setSt b).getV q = s.getV q := rfl
@[simp] theorem State.getSlot_setSt (b : Byte) (j : Fin 16) : (s.setSt b).getSlot j = s.getSlot j := rfl
@[simp] theorem State.getCell_setSt (b : Byte) (y : Fin 32) (x : Fin 64) : (s.setSt b).getCell y x = s.getCell y x := rfl

/-! ### setFb -/

@[simp] theorem State.setFb_v (f : Framebuffer) : (s.setFb f).v = s.v := rfl
@[simp] theorem State.setFb_pc (f : Framebuffer) : (s.setFb f).pc = s.pc := rfl
@[simp] theorem State.setFb_i (f : Framebuffer) : (s.setFb f).i = s.i := rfl
@[simp] theorem State.setFb_stack (f : Framebuffer) : (s.setFb f).stack = s.stack := rfl
@[simp] theorem State.setFb_sp (f : Framebuffer) : (s.setFb f).sp = s.sp := rfl
@[simp] theorem State.setFb_dt (f : Framebuffer) : (s.setFb f).dt = s.dt := rfl
@[simp] theorem State.setFb_st (f : Framebuffer) : (s.setFb f).st = s.st := rfl
@[simp] theorem State.setFb_fb (f : Framebuffer) : (s.setFb f).fb = f := rfl
@[simp] theorem State.setFb_mem (f : Framebuffer) : (s.setFb f).mem = s.mem := rfl
@[simp] theorem State.getV_setFb (f : Framebuffer) (q : RegIdx) : (s.setFb f).getV q = s.getV q := rfl
@[simp] theorem State.getSlot_setFb (f : Framebuffer) (j : Fin 16) : (s.setFb f).getSlot j = s.getSlot j := rfl

/-! ### setMem -/

@[simp] theorem State.setMem_v (m : Memory) : (s.setMem m).v = s.v := rfl
@[simp] theorem State.setMem_pc (m : Memory) : (s.setMem m).pc = s.pc := rfl
@[simp] theorem State.setMem_i (m : Memory) : (s.setMem m).i = s.i := rfl
@[simp] theorem State.setMem_stack (m : Memory) : (s.setMem m).stack = s.stack := rfl
@[simp] theorem State.setMem_sp (m : Memory) : (s.setMem m).sp = s.sp := rfl
@[simp] theorem State.setMem_dt (m : Memory) : (s.setMem m).dt = s.dt := rfl
@[simp] theorem State.setMem_st (m : Memory) : (s.setMem m).st = s.st := rfl
@[simp] theorem State.setMem_fb (m : Memory) : (s.setMem m).fb = s.fb := rfl
@[simp] theorem State.setMem_mem (m : Memory) : (s.setMem m).mem = m := rfl
@[simp] theorem State.getV_setMem (m : Memory) (q : RegIdx) : (s.setMem m).getV q = s.getV q := rfl
@[simp] theorem State.getSlot_setMem (m : Memory) (j : Fin 16) : (s.setMem m).getSlot j = s.getSlot j := rfl
@[simp] theorem State.getCell_setMem (m : Memory) (y : Fin 32) (x : Fin 64) : (s.setMem m).getCell y x = s.getCell y x := rfl

/-! ### toggleCell -/

@[simp] theorem State.toggleCell_v (r : Fin 32) (c : Fin 64) : (s.toggleCell r c).v = s.v := rfl
@[simp] theorem State.toggleCell_pc (r : Fin 32) (c : Fin 64) : (s.toggleCell r c).pc = s.pc := rfl
@[simp] theorem State.toggleCell_i (r : Fin 32) (c : Fin 64) : (s.toggleCell r c).i = s.i := rfl
@[simp] theorem State.toggleCell_stack (r : Fin 32) (c : Fin 64) : (s.toggleCell r c).stack = s.stack := rfl
@[simp] theorem State.toggleCell_sp (r : Fin 32) (c : Fin 64) : (s.toggleCell r c).sp = s.sp := rfl
@[simp] theorem State.toggleCell_dt (r : Fin 32) (c : Fin 64) : (s.toggleCell r c).dt = s.dt := rfl
@[simp] theorem State.toggleCell_st (r : Fin 32) (c : Fin 64) : (s.toggleCell r c).st = s.st := rfl
@[simp] theorem State.toggleCell_mem (r : Fin 32) (c : Fin 64) : (s.toggleCell r c).mem = s.mem := rfl
@[simp] theorem State.getV_toggleCell (r : Fin 32) (c : Fin 64) (q : RegIdx) : (s.toggleCell r c).getV q = s.getV q := rfl
@[simp] theorem State.getSlot_toggleCell (r : Fin 32) (c : Fin 64) (j : Fin 16) : (s.toggleCell r c).getSlot j = s.getSlot j := rfl

/-! ### Reading an element after writing one of the same kind -/

theorem State.getV_setV (r q : RegIdx) (b : Byte) : (s.setV r b).getV q = if q = r then b else s.getV q := by
  simp only [State.getV, State.setV, Fin.getElem_fin, Vector.getElem_set]
  by_cases h : q = r
  · simp [h]
  · have hv : r.val ≠ q.val := fun h' => h (Fin.ext h'.symm)
    simp [h, hv]

@[simp] theorem State.getV_setV_same (r : RegIdx) (b : Byte) : (s.setV r b).getV r = b := by
  simp [State.getV_setV]

theorem State.getV_setV_ne {r q : RegIdx} (h : q ≠ r) (b : Byte) : (s.setV r b).getV q = s.getV q := by
  simp [State.getV_setV, h]

theorem State.getSlot_setSlot (k j : Fin 16) (a : Word) :
    (s.setSlot k a).getSlot j = if j = k then a else s.getSlot j := by
  simp only [State.getSlot, State.setSlot, Fin.getElem_fin, Vector.getElem_set]
  by_cases h : j = k
  · simp [h]
  · have hv : k.val ≠ j.val := fun h' => h (Fin.ext h'.symm)
    simp [h, hv]

theorem State.getCell_toggleCell (r y : Fin 32) (c x : Fin 64) :
    (s.toggleCell r c).getCell y x = (s.getCell y x ^^ decide (y = r ∧ x = c)) := by
  simp only [State.getCell, State.toggleCell, State.setFb, Fin.getElem_fin, Vector.getElem_set]
  by_cases hr : y = r
  · subst hr
    by_cases hc : x = c
    · subst hc; simp
    · have hv : c.val ≠ x.val := fun h' => hc (Fin.ext h'.symm)
      simp [hc, hv]
  · have hv : r.val ≠ y.val := fun h' => hr (Fin.ext h'.symm)
    simp [hr, hv]

@[simp] theorem Framebuffer.getCell_dark (y : Fin 32) (x : Fin 64) :
    (s.setFb Framebuffer.dark).getCell y x = false := by
  simp [State.getCell, State.setFb, Framebuffer.dark]

end Sys2Proof.Machine
end

