-- ==== Sys2Proof/Laws/Draw.lean ====
section
/-! SUPPORT. The draw: what one pixel does, and what a whole draw leaves alone. -/

namespace Sys2Proof.Machine

/-- A draw may write VF and cells only: everything else of the two states is equal. -/
def SameButDraw (s t : State) : Prop :=
  t.pc = s.pc ∧ t.i = s.i ∧ t.stack = s.stack ∧ t.sp = s.sp ∧ t.dt = s.dt ∧ t.st = s.st ∧ t.mem = s.mem ∧
  ∀ q : RegIdx, q ≠ 15 → t.getV q = s.getV q

theorem SameButDraw.refl (s : State) : SameButDraw s s := ⟨rfl, rfl, rfl, rfl, rfl, rfl, rfl, fun _ _ => rfl⟩

theorem SameButDraw.trans {s t u : State} (h : SameButDraw s t) (k : SameButDraw t u) : SameButDraw s u := by
  obtain ⟨h1, h2, h3, h4, h5, h6, h7, h8⟩ := h
  obtain ⟨k1, k2, k3, k4, k5, k6, k7, k8⟩ := k
  exact ⟨k1.trans h1, k2.trans h2, k3.trans h3, k4.trans h4, k5.trans h5, k6.trans h6, k7.trans h7,
    fun q hq => (k8 q hq).trans (h8 q hq)⟩

theorem clearCollision_same (s : State) : SameButDraw s (clearCollision s) :=
  ⟨rfl, rfl, rfl, rfl, rfl, rfl, rfl, fun _ hq => State.getV_setV_ne s hq _⟩

/-- Everything one pixel does: VF becomes 1 if the cell was lit, and the cell toggles (R81). -/
theorem drawPixel_spec (s : State) (r : Fin 32) (c : Fin 64) :
    SameButDraw s (drawPixel s r c) ∧
    (drawPixel s r c).getV 15 = (if s.getCell r c then 1#8 else s.getV 15) ∧
    ∀ y x, (drawPixel s r c).getCell y x = (s.getCell y x ^^ decide (y = r ∧ x = c)) := by
  unfold drawPixel noteCollision
  by_cases h : s.getCell r c = true
  · simp only [h, if_true]
    refine ⟨⟨rfl, rfl, rfl, rfl, rfl, rfl, rfl, fun q hq => ?_⟩, ?_, fun y x => ?_⟩
    · rw [State.getV_toggleCell, State.getV_setV_ne _ hq]
    · rw [State.getV_toggleCell, State.getV_setV_same]
    · rw [State.getCell_toggleCell, State.getCell_setV]
  · simp only [h]
    exact ⟨⟨rfl, rfl, rfl, rfl, rfl, rfl, rfl, fun _ _ => rfl⟩, rfl, fun y x => State.getCell_toggleCell ..⟩

/-- A fold of steps that each change only what a draw may change does the same. -/
theorem foldl_sameButDraw {α : Type} (f : State → α → State) (hf : ∀ t a, SameButDraw t (f t a)) (l : List α)
    (s : State) : SameButDraw s (l.foldl f s) := by
  induction l generalizing s with
  | nil => exact .refl s
  | cons a rest ih => exact (hf s a).trans (ih (f s a))

theorem drawRow_same (yp xp row : Nat) (s : State) : SameButDraw s (drawRow yp xp row s) := by
  refine foldl_sameButDraw _ (fun t col => ?_) _ s
  split
  · exact (drawPixel_spec t _ _).1
  · exact .refl t

/-- A whole draw leaves everything but VF and cells alone (R81). -/
theorem drawRows_same (n yp xp : Nat) (s : State) : SameButDraw s (drawRows n yp xp s) :=
  foldl_sameButDraw _ (fun t row => drawRow_same yp xp row t) _ s

/-- DRW completes exactly when its sprite lies inside memory (R81). -/
theorem execDrw_cases (x y : RegIdx) (n : Fin 16) (s : State) :
    (spriteOutside s n ∧ execDrw x y n s = .fault (.boundsViolation (s.i.toNat + n.val - 1))) ∨
    (¬ spriteOutside s n ∧
      execDrw x y n s = .next (drawRows n.val (originRow s y) (originCol s x) (clearCollision s))) := by
  have hb : (n.val > 0 ∧ rowAddr s (n.val - 1) > 4095) ↔ spriteOutside s n := by
    simp only [rowAddr, spriteOutside]
    omega
  by_cases h : spriteOutside s n
  · refine .inl ⟨h, ?_⟩
    rw [execDrw, if_pos (hb.2 h), raise, rowAddr, ← Nat.add_sub_assoc h.1]
  · exact .inr ⟨h, by rw [execDrw, if_neg (fun k => h (hb.1 k))]⟩

end Sys2Proof.Machine
end

