-- ==== Sys2Proof/Laws/Memory.lean ====
section
/-! SUPPORT. Memory: a read after a write, the canonical form, and its uniqueness. -/

namespace Sys2Proof.Machine

/-! ### A read after a write -/

@[simp] theorem Memory.read_nil (a : Nat) : Memory.read [] a = 0#8 := rfl

/-- In canonical form an address below every listed one reads as 0. -/
theorem Memory.read_eq_zero_of_below {m : Memory} {a : Nat} (h : ∀ c ∈ m, a < c.1) : m.read a = 0#8 := by
  induction m with
  | nil => rfl
  | cons c rest ih =>
    have hc := h c (by simp)
    simp only [Memory.read, if_neg (show c.1 ≠ a by omega)]
    exact ih fun d hd => h d (by simp [hd])

/-- The law of memory: a write is read back, and every other address reads as before. -/
theorem Memory.read_write {m : Memory} (hm : m.wf) (a : Nat) (v : Byte) (x : Nat) :
    (m.write a v).read x = if x = a then v else m.read x := by
  induction m with
  | nil =>
    by_cases hv : v = 0#8
    · simp [Memory.write, hv]
    · by_cases hx : x = a
      · simp [Memory.write, Memory.read, hv, hx]
      · simp [Memory.write, Memory.read, hv, hx, Ne.symm hx]
  | cons c rest ih =>
    obtain ⟨k, b⟩ := c
    obtain ⟨hp, hb⟩ := hm
    rw [List.pairwise_cons] at hp
    have hrest : Memory.wf rest := ⟨hp.2, fun d hd => hb d (by simp [hd])⟩
    have below : ∀ y, y ≤ k → Memory.read rest y = 0#8 := fun y hy =>
      Memory.read_eq_zero_of_below fun d hd => lt_of_le_of_lt hy (hp.1 d hd)
    have hzero : ∀ y, y < k → Memory.read ((k, b) :: rest) y = 0#8 := fun y hy => by
      simp only [Memory.read, if_neg (show k ≠ y by omega)]
      exact below y (by omega)
    unfold Memory.write
    by_cases h1 : a < k
    · rw [if_pos h1]
      by_cases hv : v = 0#8
      · rw [if_pos hv]
        by_cases hx : x = a
        · rw [if_pos hx, hx, hzero a h1, hv]
        · rw [if_neg hx]
      · rw [if_neg hv]
        by_cases hx : x = a
        · simp [Memory.read, hx]
        · rw [if_neg hx, Memory.read, if_neg (Ne.symm hx)]
    · rw [if_neg h1]
      by_cases h2 : a = k
      · subst h2
        rw [if_pos rfl]
        by_cases hv : v = 0#8
        · rw [if_pos hv]
          by_cases hx : x = a
          · rw [if_pos hx, hx, below a le_rfl, hv]
          · rw [if_neg hx, Memory.read, if_neg (Ne.symm hx)]
        · rw [if_neg hv]
          by_cases hx : x = a
          · simp [Memory.read, hx]
          · rw [if_neg hx, Memory.read, if_neg (Ne.symm hx), Memory.read, if_neg (Ne.symm hx)]
      · rw [if_neg h2, Memory.read, Memory.read, ih hrest]
        by_cases hk : k = x
        · rw [if_pos hk, if_pos hk, if_neg (by omega)]
        · rw [if_neg hk, if_neg hk]

/-! ### The canonical form -/

/-- Every address listed after a write was listed before it or is the one written. -/
theorem Memory.mem_write {m : Memory} {a : Nat} {v : Byte} {c : Host.Cell} (h : c ∈ m.write a v) :
    c ∈ m ∨ (c = (a, v) ∧ v ≠ 0#8) := by
  induction m with
  | nil =>
    by_cases hv : v = 0#8
    · simp [Memory.write, hv] at h
    · simp only [Memory.write, if_neg hv, List.mem_singleton] at h
      exact .inr ⟨h, hv⟩
  | cons d rest ih =>
    obtain ⟨k, b⟩ := d
    unfold Memory.write at h
    split at h
    · split at h
      · exact .inl h
      · rcases List.mem_cons.1 h with h | h
        · exact .inr ⟨h, ‹_›⟩
        · exact .inl h
    · split at h
      · split at h
        · exact .inl (by simp [h])
        · rcases List.mem_cons.1 h with h | h
          · exact .inr ⟨h, ‹_›⟩
          · exact .inl (by simp [h])
      · rcases List.mem_cons.1 h with h | h
        · exact .inl (by simp [h])
        · rcases ih h with h | h
          · exact .inl (by simp [h])
          · exact .inr h

/-- A write to an address that exists keeps the canonical form. -/
theorem Memory.wf_write {m : Memory} (hm : m.wf) {a : Nat} (ha : a < 4096) (v : Byte) : (m.write a v).wf := by
  refine ⟨?_, fun c hc => ?_⟩
  · induction m with
    | nil =>
      by_cases hv : v = 0#8 <;> simp [Memory.write, hv]
    | cons d rest ih =>
      obtain ⟨k, b⟩ := d
      obtain ⟨hp, hb⟩ := hm
      have hp' := List.pairwise_cons.1 hp
      have hrest : Memory.wf rest := ⟨hp'.2, fun d hd => hb d (by simp [hd])⟩
      unfold Memory.write
      split
      · split
        · exact hp
        · refine List.pairwise_cons.2 ⟨fun c hc => ?_, hp⟩
          rcases List.mem_cons.1 hc with rfl | hc
          · assumption
          · have := hp'.1 c hc
            simp only at this ⊢
            omega
      · split
        · subst_vars
          split
          · exact hp'.2
          · exact List.pairwise_cons.2 ⟨hp'.1, hp'.2⟩
        · refine List.pairwise_cons.2 ⟨fun c hc => ?_, ih hrest⟩
          rcases Memory.mem_write hc with hc | ⟨rfl, -⟩
          · exact hp'.1 c hc
          · simp only
            omega
  · rcases Memory.mem_write hc with hc | ⟨rfl, hv⟩
    · exact hm.2 c hc
    · exact ⟨ha, hv⟩

/-- Memory with nothing listed, as at reset, is in canonical form. -/
theorem Memory.wf_nil : Memory.wf [] := ⟨List.Pairwise.nil, by simp⟩

/-! ### The checked primitives -/

/-- What a checked byte write that completes has done (R34). -/
theorem memWrite1_ok {m m' : Memory} {a : Nat} {v : Byte} (h : memWrite1 m a v = .ok m') :
    a ≤ 4095 ∧ m' = m.write a v := by
  unfold memWrite1 at h
  split at h
  · cases h
  · cases h
    exact ⟨by omega, rfl⟩

/-- A buffer that fits is written without a fault and keeps the canonical form (R113). -/
theorem writeBuffer_ok {m : Memory} (hm : m.wf) (a : Nat) (buf : List Byte) (h : a + buf.length ≤ 4096) :
    ∃ m', writeBuffer m a buf = .ok m' ∧ m'.wf ∧
      ∀ x, m'.read x = if h : a ≤ x ∧ x < a + buf.length then buf[x - a]'(by omega) else m.read x := by
  induction buf generalizing m a with
  | nil => exact ⟨m, rfl, hm, fun x => by rw [dif_neg (by simp)]⟩
  | cons b rest ih =>
    simp only [List.length_cons] at h
    have ha : ¬ a > 4095 := by omega
    obtain ⟨m', hw, hwf, hr⟩ := ih (Memory.wf_write hm (show a < 4096 by omega) b) (a + 1) (by omega)
    refine ⟨m', by simp [writeBuffer, memWrite1, ha, hw], hwf, fun x => ?_⟩
    rw [hr x, Memory.read_write hm]
    by_cases hx : x = a
    · subst hx
      simp
    · by_cases hin : a + 1 ≤ x ∧ x < a + 1 + rest.length
      · have hsub : x - a = (x - (a + 1)) + 1 := by omega
        rw [dif_pos hin, dif_pos ⟨by omega, by simp; omega⟩]
        simp [hsub]
      · rw [dif_neg hin, if_neg hx, dif_neg (by simp; omega)]

/-- The memory RESET leaves is in canonical form, whatever the image (R110). -/
theorem imageMemory_wf (image : Config.MemImage) : (imageMemory image).wf := by
  unfold imageMemory
  suffices h : ∀ m : Memory, m.wf → (image.foldl (fun m c => m.write c.1 c.2) m).wf from h [] Memory.wf_nil
  induction image with
  | nil => exact fun m hm => hm
  | cons c rest ih => exact fun m hm => ih _ (Memory.wf_write hm c.1.isLt c.2)

end Sys2Proof.Machine
end

