-- ==== Sys2Proof/Laws/Ops.lean ====
section
/-! SUPPORT. Once for each shared operation, everything it can do: the stack, the fetch, the word placed for a fetch,
and the writes of a draw. -/

namespace Sys2Proof.Machine

/-! ### Byte order -/

@[simp] theorem highByte_composeWord (hi lo : Byte) : highByte (composeWord hi lo) = hi := by
  unfold highByte composeWord
  rw [BitVec.extractLsb'_append_eq_of_le (by omega)]
  simp

@[simp] theorem lowByte_composeWord (hi lo : Byte) : lowByte (composeWord hi lo) = lo := by
  unfold lowByte composeWord
  rw [BitVec.extractLsb'_append_eq_of_add_le (by omega)]
  simp

@[simp] theorem composeWord_bytes (w : Word) : composeWord (highByte w) (lowByte w) = w := by
  unfold composeWord highByte lowByte
  exact BitVec.extractLsb'_append_extractLsb'_eq_extractLsb' (by omega) |>.trans (by simp)

/-! ### Operands -/

/-- A 12-bit address keeps its value when it is zero-extended (R48). -/
@[simp] theorem addrOperand_toNat (nnn : Addr12) : (addrOperand nnn).toNat = nnn.toNat := by
  have := nnn.isLt
  rw [addrOperand, BitVec.toNat_setWidth]
  omega

/-! ### The stack -/

/-- Everything a push that completes has done (R71). -/
theorem push_ok {s t : State} {a : Word} (h : push s a = .ok t) :
    ∃ k : Fin 16, k.val = s.sp.val ∧ ∃ n : Fin 17, n.val = s.sp.val + 1 ∧ t = (s.setSlot k a).setSp n := by
  unfold push at h
  split at h
  · cases h
    exact ⟨_, rfl, _, rfl, rfl⟩
  · cases h

/-- Everything a pop that completes has done (R72). -/
theorem pop_ok {s t : State} {a : Word} (h : pop s = .ok (a, t)) :
    ∃ k : Fin 16, k.val + 1 = s.sp.val ∧ a = s.getSlot k ∧ ∃ n : Fin 17, n.val + 1 = s.sp.val ∧ t = s.setSp n := by
  unfold pop at h
  split at h
  · cases h
    exact ⟨_, by simp; omega, rfl, _, by simp; omega, rfl⟩
  · cases h

/-! ### Control flow -/

/-- Everything CALL can do (R71). -/
theorem execCall_cases (nnn : Addr12) (s : State) :
    (s.sp.val = 16 ∧ execCall nnn s = .fault (.stackOverflow 16)) ∨
    ∃ k : Fin 16, k.val = s.sp.val ∧ ∃ n : Fin 17, n.val = s.sp.val + 1 ∧
      execCall nnn s = .next (((s.setSlot k s.pc).setSp n).setPc (addrOperand nnn)) := by
  by_cases h : s.sp.val < 16
  · exact .inr ⟨⟨s.sp, h⟩, rfl, ⟨s.sp + 1, by omega⟩, rfl, by simp [execCall, push, h, Except.map, complete]⟩
  · have h16 : s.sp.val = 16 := by omega
    exact .inl ⟨h16, by simp [execCall, push, h16, Except.map, complete, raise]⟩

/-- Everything RET can do (R72). -/
theorem execRet_cases (s : State) :
    (s.sp.val = 0 ∧ execRet s = .fault (.stackUnderflow 0)) ∨
    ∃ k : Fin 16, k.val + 1 = s.sp.val ∧ ∃ n : Fin 17, n.val + 1 = s.sp.val ∧
      execRet s = .next ((s.setSp n).setPc (s.getSlot k)) := by
  by_cases h : 0 < s.sp.val
  · exact .inr ⟨⟨s.sp - 1, by omega⟩, by simp; omega, ⟨s.sp - 1, by omega⟩, by simp; omega,
      by simp [execRet, pop, h, Except.map, complete]⟩
  · have h0 : s.sp.val = 0 := by omega
    exact .inl ⟨h0, by simp [execRet, pop, h0, Except.map, complete, raise]⟩

/-! ### Fetch -/

/-- The advance of a fetch that succeeds never wraps (R15, R61). -/
theorem pc_advance {a : Word} (h : a.toNat ≤ 4094) : (a + 2#16).toNat = a.toNat + 2 := by
  rw [BitVec.toNat_add]
  simp only [BitVec.toNat_ofNat]
  omega

/-- A fetch inside memory (R61). -/
theorem fetch_inside {s : State} (h : s.pc.toNat ≤ 4094) :
    fetch s = .ok (composeWord (s.mem.read s.pc.toNat) (s.mem.read (s.pc.toNat + 1)), s.setPc (s.pc + 2#16)) := by
  have hb : ¬ s.pc.toNat + 1 > 4095 := by omega
  simp [fetch, memRead2, hb]

/-- A fetch beyond memory (R61, R91). -/
theorem fetch_outside {s : State} (h : 4095 ≤ s.pc.toNat) : fetch s = .error (.boundsViolation (s.pc.toNat + 1)) := by
  have hb : s.pc.toNat + 1 > 4095 := by omega
  simp [fetch, memRead2, hb]

/-- The one inversion of the step: what a step that completes has done. -/
theorem step_next {s t : State} (h : step s = .next t) :
    s.pc.toNat ≤ 4094 ∧
    exec (decode (composeWord (s.mem.read s.pc.toNat) (s.mem.read (s.pc.toNat + 1)))) (s.setPc (s.pc + 2#16)) =
      .next t := by
  by_cases hp : s.pc.toNat ≤ 4094
  · rw [step, fetch_inside hp] at h
    exact ⟨hp, h⟩
  · rw [step, fetch_outside (by omega)] at h
    cases h

/-- A step from a state a table word was placed in fetches and runs exactly that word (log entry 18). -/
theorem step_withFetchWord (s : State) (hm : s.mem.wf) (nbits w : Nat) :
    ∃ t, fetch (s.withFetchWord nbits w) = .ok (tableWord nbits w, t) ∧
      step (s.withFetchWord nbits w) = exec (decode (tableWord nbits w)) t := by
  have key : ∀ u : State, u.mem.wf → u.pc.toNat ≤ 4094 → ∀ x : Word,
      fetch (u.setMem ((u.mem.write u.pc.toNat (highByte x)).write (u.pc.toNat + 1) (lowByte x))) =
        .ok (x, (u.setMem ((u.mem.write u.pc.toNat (highByte x)).write (u.pc.toNat + 1) (lowByte x))).setPc
          (u.pc + 2#16)) := by
    intro u hu hp x
    have hw := Memory.wf_write hu (show u.pc.toNat < 4096 by omega) (highByte x)
    rw [fetch_inside (by simpa using hp)]
    simp only [State.setMem_mem, State.setMem_pc, Memory.read_write hw, Memory.read_write hu]
    simp
  have h : ∃ t, fetch (s.withFetchWord nbits w) = .ok (tableWord nbits w, t) := by
    unfold State.withFetchWord placeFetchWord
    by_cases hp : s.pc.toNat ≤ 4094
    · simp only [if_pos hp]
      exact ⟨_, key s hm hp _⟩
    · simp only [if_neg hp]
      exact ⟨_, key (s.setPc Config.origin) hm (show Config.origin.toNat ≤ 4094 by decide) _⟩
  obtain ⟨t, ht⟩ := h
  exact ⟨t, ht, by rw [step, ht]⟩

end Sys2Proof.Machine
end

