-- ==== Sys2Proof/Laws/PerInstr.lean ====
section
/-! SUPPORT. Statements about every instruction, one lemma per constructor. OpcodeRow: the word of a well-formed
instruction is selected by the instruction's own row of the opcode map (R49). -/

namespace Sys2Proof

/-- The row of rule R49 a mnemonic names. -/
def Mnemonic.row : Mnemonic → OpcodeRow
  | .CLS => ⟨.CLS, 0x00E0#16, 0xFFFF#16⟩
  | .RET => ⟨.RET, 0x00EE#16, 0xFFFF#16⟩
  | .JP => ⟨.JP, 0x1000#16, 0xF000#16⟩
  | .CALL => ⟨.CALL, 0x2000#16, 0xF000#16⟩
  | .LD_Vx => ⟨.LD_Vx, 0x6000#16, 0xF000#16⟩
  | .ADD_Vx => ⟨.ADD_Vx, 0x7000#16, 0xF000#16⟩
  | .LD_I => ⟨.LD_I, 0xA000#16, 0xF000#16⟩
  | .DRW => ⟨.DRW, 0xD000#16, 0xF000#16⟩
  | .UNRECOGNISED => ⟨.UNRECOGNISED, 0x0000#16, 0x0000#16⟩

/-- A word whose leading nibble is `op` meets the nibble mask's test. -/
theorem and_nibble_mask (op : BitVec 4) (rest : BitVec 12) : (op ++ rest : Word) &&& 0xF000#16 = op ++ 0#12 := by
  have h : (0xF000#16 : Word) = 0xF#4 ++ 0#12 := by decide
  have h1 : op &&& 0xF#4 = op := by
    have : (0xF#4) = BitVec.allOnes 4 := by decide
    rw [this, BitVec.and_allOnes]
  rw [h, BitVec.and_append, h1, BitVec.and_zero]

end Sys2Proof

namespace Sys2Proof.Laws.OpcodeRow

/-- The instruction's word is selected by its own row. -/
def Statement (i : Instr) : Prop := i.wf = true → (i.mnemonic.row).selects (encode i) = true

/-- A word selects a nibble row when its leading nibble is the row's. -/
theorem selects_nibble (m : Mnemonic) (op : BitVec 4) (rest : BitVec 12) :
    Sys2Proof.OpcodeRow.selects ⟨m, op ++ 0#12, 0xF000#16⟩ (op ++ rest) = true := by
  simp only [Sys2Proof.OpcodeRow.selects, and_nibble_mask, beq_self_eq_true]

theorem cls : Statement .cls := fun _ => by decide
theorem ret : Statement .ret := fun _ => by decide
theorem jp (nnn : Addr12) : Statement (.jp nnn) := fun _ => selects_nibble .JP 0x1#4 nnn
theorem call (nnn : Addr12) : Statement (.call nnn) := fun _ => selects_nibble .CALL 0x2#4 nnn
theorem ldVx (x : RegIdx) (nn : Byte) : Statement (.ldVx x nn) := fun _ => by
  have h : encode (.ldVx x nn) = (0x6#4 ++ (BitVec.ofFin (w := 4) x ++ nn) : BitVec (4 + 12)) :=
    BitVec.append_assoc
  rw [h]
  exact selects_nibble .LD_Vx 0x6#4 _
theorem addVx (x : RegIdx) (nn : Byte) : Statement (.addVx x nn) := fun _ => by
  have h : encode (.addVx x nn) = (0x7#4 ++ (BitVec.ofFin (w := 4) x ++ nn) : BitVec (4 + 12)) :=
    BitVec.append_assoc
  rw [h]
  exact selects_nibble .ADD_Vx 0x7#4 _
theorem ldI (nnn : Addr12) : Statement (.ldI nnn) := fun _ => selects_nibble .LD_I 0xA#4 nnn
theorem drw (x y : RegIdx) (n : Fin 16) : Statement (.drw x y n) := fun _ => by
  have h : encode (.drw x y n) =
      (0xD#4 ++ (BitVec.ofFin (w := 4) x ++ (BitVec.ofFin (w := 4) y ++ BitVec.ofFin (w := 4) n)) :
        BitVec (4 + 12)) := by
    simp only [encode, BitVec.append_assoc, BitVec.cast_eq]
  rw [h]
  exact selects_nibble .DRW 0xD#4 _
theorem unrecognised (w : Word) : Statement (.unrecognised w) := fun _ => by
  simp [Instr.mnemonic, Mnemonic.row, Sys2Proof.OpcodeRow.selects, encode]

end Sys2Proof.Laws.OpcodeRow
end

