-- ==== Sys2Proof/Tests/Slice0.lean ====
section
/-! SUPPORT. The model's own tests: the WellFormed smoke, words written out from the spec's encodings, vectors of
spec/95_test_vectors.md (their expected values are the spec's), and for each statement with hypotheses a witness that
meets them. -/

namespace Sys2Proof.Tests

open Sys2Proof Sys2Proof.Machine

/-! ### Helpers -/

/-- The reset state with a word at the origin. -/
def prog (w : Nat) : State := State.reset.withFetchWord 16 w

/-- What a step answered, if it completed. -/
def after (r : Result) : Option State :=
  match r with
  | .next t => some t
  | .fault _ => none
  | .refused _ => none

/-- A state about to draw: `V0`, `V1`, `I` and a memory. -/
def canvas (v0 v1 : Nat) (i : Nat) (m : Memory) : State :=
  (((State.reset.setV 0 (BitVec.ofNat 8 v0)).setV 1 (BitVec.ofNat 8 v1)).setI (BitVec.ofNat 16 i)).setMem m

/-- How many cells are lit. -/
def litCount (s : State) : Nat := (framebufferView s).count true

/-! ### WellFormed: the one check refuses each recognised pattern -/

theorem test_wf_refuses_cls_word : (Instr.unrecognised 0x00E0).wf = false := by decide
theorem test_wf_refuses_ret_word : (Instr.unrecognised 0x00EE).wf = false := by decide
theorem test_wf_refuses_nibble_words :
    (Instr.unrecognised 0x1234).wf = false ∧ (Instr.unrecognised 0x2ABC).wf = false ∧
    (Instr.unrecognised 0x6A55).wf = false ∧ (Instr.unrecognised 0x7F01).wf = false ∧
    (Instr.unrecognised 0xA123).wf = false ∧ (Instr.unrecognised 0xD125).wf = false := by decide
theorem test_wf_accepts_the_rest : (Instr.unrecognised 0x00E1).wf = true ∧ (Instr.unrecognised 0x0000).wf = true := by
  decide
theorem test_memory_wf_refuses_zero_byte : ¬ Memory.wf [(5, 0)] := by decide
theorem test_memory_wf_refuses_disorder : ¬ Memory.wf [(6, 1), (5, 1)] := by decide
theorem test_memory_wf_refuses_absent_address : ¬ Memory.wf [(4096, 1)] := by decide

/-! ### Decoding: words written out bit by bit from rule R49's patterns (vectors 2.1) -/

theorem test_decode_cls : decodeTableWord 16 0b0000_0000_1110_0000 = some .cls := by decide
theorem test_decode_ret : decodeTableWord 16 0b0000_0000_1110_1110 = some .ret := by decide
theorem test_decode_jp : decodeTableWord 16 0b0001_0010_0011_0100 = some (.jp 0x234) := by decide
theorem test_decode_call : decodeTableWord 16 0b0010_1010_1011_1100 = some (.call 0xABC) := by decide
theorem test_decode_ldVx : decodeTableWord 16 0b0110_1010_0101_0101 = some (.ldVx 10 0x55) := by decide
theorem test_decode_addVx : decodeTableWord 16 0b0111_1111_0000_0001 = some (.addVx 15 1) := by decide
theorem test_decode_ldI : decodeTableWord 16 0b1010_0001_0010_0011 = some (.ldI 0x123) := by decide
theorem test_decode_drw : decodeTableWord 16 0b1101_0001_0010_0101 = some (.drw 1 2 5) := by decide
theorem test_decode_unrecognised : decodeTableWord 16 0b0000_1110_1110_0000 = some (.unrecognised 0x0EE0) := by decide
theorem test_decode_truncated : decodeBytes [0x12] = .error .truncated := by decide

/-! ### One step each (vectors 2.2 to 2.5) -/

theorem test_jp : (after (step (prog 0x1234))).map State.pc = some 0x234 := by decide
theorem test_jp_odd_target : (after (step (prog 0x1201))).map State.pc = some 0x201 := by decide

theorem test_call_sixteenth :
    (after (step (((State.reset.setPc 0x400).setSp 15).withFetchWord 16 0x2300))).map
      (fun t => (t.getSlot 15, t.sp, t.pc)) = some (0x402, 16, 0x300) := by decide
theorem test_call_overflow :
    (tick false (((State.reset.setPc 0x400).setSp 16).withFetchWord 16 0x2300)).2 = .fatal (.stackOverflow 16) := by
  decide

theorem test_ret_from_full :
    (after (step (((State.reset.setPc 0x300).setSp 16 |>.setSlot 15 0x402).withFetchWord 16 0x00EE))).map
      (fun t => (t.getSlot 15, t.sp, t.pc)) = some (0x402, 15, 0x402) := by decide
theorem test_ret_underflow : (tick false (prog 0x00EE)).2 = .fatal (.stackUnderflow 0) := by decide

theorem test_ldI_top : (after (step (prog 0xAFFF))).map State.i = some 0x0FFF := by decide
theorem test_ldVx_VA : (after (step ((prog 0x6AFF).setV 10 7))).map (fun t => t.getV 10) = some 0xFF := by decide
theorem test_ldVx_VF : (after (step ((prog 0x6F05).setV 15 1))).map (fun t => t.getV 15) = some 5 := by decide
theorem test_addVx_no_carry :
    (after (step ((prog 0x700A).setV 0 250))).map (fun t => (t.getV 0, t.getV 15)) = some (4, 0) := by decide
theorem test_addVx_VF_holds_the_sum :
    (after (step ((prog 0x7F05).setV 15 3))).map (fun t => t.getV 15) = some 8 := by decide

theorem test_cls :
    (after (step (((prog 0x00E0).toggleCell 31 63).setV 15 1))).map (fun t => (litCount t, t.getV 15)) =
      some (0, 1) := by decide +kernel

/-- Vector S5: the sprite C0 C0 at (63, 31) wraps on both axes. -/
theorem test_drw_wraps :
    (after (execDrw 0 1 2 (canvas 63 31 0x300 [(0x300, 0xC0), (0x301, 0xC0)]))).map
      (fun t => (t.getCell 31 63, t.getCell 31 0, t.getCell 0 63, t.getCell 0 0, litCount t, t.getV 15)) =
      some (true, true, true, true, 4, 0) := by decide +kernel
/-- Vector 2.4: the coordinate comes from VF before it is cleared, and the sprite 80 lights one cell. -/
theorem test_drw_reads_VF_first :
    (after (execDrw 15 1 1 ((canvas 0 0 0x300 [(0x300, 0x80)]).setV 15 5))).map
      (fun t => (t.getCell 0 5, litCount t, t.getV 15)) = some (true, 1, 0) := by decide +kernel

theorem test_unrecognised : (after (step (prog 0x8014))).map State.pc = some 0x202 := by decide
theorem test_unrecognised_diagnostic : (tick true (prog 0x8014)).2 = .diag 0x8014 0x200 := by decide

/-! ### The host's operations (vectors 2.6, 2.7, S1) -/

theorem test_tickDelay_stops_at_zero : (tickDelay State.reset).dt = 0 := by decide
theorem test_tickDelay_from_255 : (tickDelay (State.reset.setDt 255)).dt = 254 := by decide
theorem test_tickSound : (tickSound (State.reset.setSt 2)).st = 1 := by decide
theorem test_load_last_byte : (load 0xFFF [0x80] State.reset).1.mem.read 0xFFF = 0x80 := by decide
theorem test_load_too_long : (load 0xFFF [0x80, 0x81] State.reset).2 = .fatal (.boundsViolation 4096) := by decide
theorem test_load_empty_beyond : (load 4097 [] State.reset).2 = .fatal (.boundsViolation 4096) := by decide
theorem test_outcome_codes :
    (tick true (prog 0x1234)).2.code = some 0 ∧ (tick true (prog 0x8014)).2.code = none ∧
    (load 0xFFF [0x80, 0x81] State.reset).2.code = some 1 ∧ (tick true ((prog 0x2300).setSp 16)).2.code = some 2 ∧
    (tick true (prog 0x00EE)).2.code = some 3 := by decide
theorem test_fetch_last_word :
    (after (step ((State.reset.setPc 0xFFE).withFetchWord 16 0x0000))).map State.pc = some 0x1000 := by decide
theorem test_fetch_last_byte : (tick false (State.reset.setPc 0xFFF)).2 = .fatal (.boundsViolation 4096) := by decide
theorem test_reset_image_last_byte_wins :
    (State.resetWith [(5, 1), (5, 2), (6, 3), (6, 0)]).mem = [(5, 2)] := by decide

/-! ### Witnesses: concrete states and operands that meet each statement's hypotheses -/

theorem witness_DecodeInvertsEncode : (Instr.drw 15 0 15).wf = true ∧ (Instr.unrecognised 0xFFFF).wf = true := by decide
theorem witness_RecognisedRowsNeverOverlap :
    ∃ a ∈ recognisedRows, ∃ b ∈ recognisedRows, a.selects 0x00E0 = true ∧ b.selects 0x00E0 = true := by decide
theorem witness_DecodeReadsExactlyTwoBytes :
    (Instr.jp 0xFFF).wf = true ∧ ([0x1F] : List Byte).length < 2 := by decide
theorem witness_ByteReadIsRangeChecked :
    memRead1 [(4095, 7)] 4095 = .ok 7 ∧ memRead1 [(4095, 7)] 4096 = .error (.boundsViolation 4096) := by decide
theorem witness_WordReadIsBigEndian :
    memRead2 [(4094, 0x12), (4095, 0x34)] 4094 = .ok 0x1234 ∧
    memRead2 [(4095, 7)] 4095 = .error (.boundsViolation 4096) := by decide
theorem witness_ByteWriteStoresOneByte :
    Memory.wf [(5, 1)] ∧ memWrite1 [(5, 1)] 4095 9 = .ok [(5, 1), (4095, 9)] ∧
    memWrite1 [(5, 1)] 4096 9 = .error (.boundsViolation 4096) := by decide
theorem witness_CanonicalMemoryIsUnique : Memory.wf [(5, 1), (4095, 9)] := by decide
theorem witness_FetchComposesAndAdvances :
    (State.reset.setPc 4094).pc.toNat ≤ 4094 ∧ 4095 ≤ (State.reset.setPc 4095).pc.toNat := by decide
theorem witness_StepRunsTheDecodedInstruction :
    (Instr.jp 0x234).wf = true ∧ (prog 0x1234).pc.toNat ≤ 4094 ∧
    (prog 0x1234).mem.read (prog 0x1234).pc.toNat = highByte (encode (.jp 0x234)) ∧
    (prog 0x1234).mem.read ((prog 0x1234).pc.toNat + 1) = lowByte (encode (.jp 0x234)) := by decide
theorem witness_StepStopsExactlyOnFatalConditions :
    fatalCondition (State.reset.setPc 4095) = some (.boundsViolation 4096) ∧
    fatalCondition ((prog 0x2300).setSp 16) = some (.stackOverflow 16) ∧
    fatalCondition (prog 0x00EE) = some (.stackUnderflow 0) ∧
    fatalCondition ((prog 0xD012).setI 0xFFF) = some (.boundsViolation 4096) ∧
    fatalCondition ((prog 0xD011).setI 0xFFF) = none := by decide
theorem witness_CallPushesAdvancedPc :
    (State.reset.setSp 15).sp.val = (15 : Fin 16).val ∧ State.reset.sp.val = (0 : Fin 16).val := by decide
theorem witness_CallOverflowsAtSixteen : (State.reset.setSp 16).sp.val = 16 := by decide
theorem witness_RetPopsIntoPc :
    (State.reset.setSp 1).sp.val = (0 : Fin 16).val + 1 ∧ (State.reset.setSp 16).sp.val = (15 : Fin 16).val + 1 := by
  decide
theorem witness_RetUnderflowsAtZero : State.reset.sp.val = 0 := by decide

/-- CALL 0x208 at 0x200, ADD V0, 10 at 0x208 and RET at 0x20A (program P2's shape): the state before the call. -/
def callSite : State := (prog 0x2208).setMem [(0x200, 0x22), (0x201, 0x08), (0x208, 0x70), (0x209, 0x0A), (0x20B, 0xEE)]
/-- The state after the call. -/
def callee : State := ((callSite.setSlot 0 0x202).setSp 1).setPc 0x208
/-- The state after the callee's one step, about to return. -/
def returning : State := (callee.setPc 0x20A).setV 0 10

theorem witness_CallReturnRoundTrip :
    instrAt callSite = .call 0x208 ∧ step callSite = .next callee ∧
    step callee = .next returning ∧ StepsAbove (callSite.sp.val + 1) callee returning ∧
    returning.sp.val = callSite.sp.val + 1 ∧ returning.pc.toNat ≤ 4094 ∧ instrAt returning = .ret :=
  ⟨by decide, by rfl, by rfl, .tail (.refl (by decide)) (by rfl) (by decide), by decide, by decide, by decide⟩
theorem witness_JumpToSelfChangesNothing :
    (prog 0x1200).pc.toNat ≤ 4094 ∧ instrAt (prog 0x1200) = .jp 0x200 ∧
    (0x200 : Addr12).toNat = (prog 0x1200).pc.toNat := by decide
theorem witness_DrwXorsTheSpriteMask :
    ((0 : Fin 16).val = 0) ∧ (State.reset.setI 0xFFF).i.toNat + (1 : Fin 16).val - 1 ≤ 4095 ∧
    (State.reset.setI 0xFF1).i.toNat + (15 : Fin 16).val - 1 ≤ 4095 ∧
    InSprite (canvas 63 31 0x300 [(0x300, 0xC0), (0x301, 0xC0)]) 0 1 2 0 0 := by decide
theorem witness_DrwFaultsExactlyOutsideMemory :
    (after (execDrw 0 1 15 (State.reset.setI 0xFF2))).isNone = true ∧
    (after (execDrw 0 1 15 (State.reset.setI 0xFF1))).isSome = true := by decide
theorem witness_DrwTwiceRestoresTheDisplay :
    (after (execDrw 0 1 1 (canvas 3 4 0x300 [(0x300, 0x80)]))).map (fun t => (t.getV 0, t.getV 1)) = some (3, 4) ∧
    InSprite (canvas 3 4 0x300 [(0x300, 0x80)]) 0 1 1 4 3 ∧
    ∀ r c, InSprite (canvas 3 4 0x300 [(0x300, 0x80)]) 0 1 1 r c →
      (canvas 3 4 0x300 [(0x300, 0x80)]).getCell r c = false :=
  ⟨by decide, by decide, fun r c _ => by simp [canvas, State.reset, State.getCell, State.setV, State.setI,
    State.setMem, Framebuffer.dark]⟩
theorem witness_UnrecognisedTickOnlyAdvancesPc :
    recognised 0x8014 = false ∧ (prog 0x8014).pc.toNat ≤ 4094 ∧
    (prog 0x8014).mem.read (prog 0x8014).pc.toNat = highByte 0x8014 ∧
    (prog 0x8014).mem.read ((prog 0x8014).pc.toNat + 1) = lowByte 0x8014 := by decide
theorem witness_InstructionsWriteOnlyTheirElements :
    (after (exec (.call 0x300) State.reset)).isSome = true ∧ (after (exec (.drw 0 1 15) State.reset)).isSome = true := by
  decide
theorem witness_VfRolesNeverMix :
    (after (exec (.drw 15 15 1) State.reset)).isSome = true ∧ (after (exec (.ldVx 14 9) State.reset)).isSome = true := by
  decide
theorem witness_TickMovesPcByTheTable :
    (tick false (prog 0x00EE)).2 = .fatal (.stackUnderflow 0) ∧ (tick false (prog 0x2300)).2 = .ok := by decide

/-- A state with one return address and a stale slot above it. -/
def stale : State := (State.reset.setSp 1).setSlot 3 9

theorem witness_SlotsAboveSpAreUnobservable :
    SameToPrograms (State.reset.setSp 1) stale ∧ (State.reset.setSp 1).stack ≠ stale.stack := by
  refine ⟨fun e he => ?_, by decide⟩
  cases e with
  | stack k =>
    have hk : k ≠ 3 := by
      rintro rfl
      exact he ⟨3, by decide, rfl⟩
    simp [inspect, stale, State.getSlot_setSlot, hk]
  | _ => rfl
theorem witness_ResetLeavesRuleR28 :
    ({} : Config.Params).resetMemImage = [] ∧ (State.resetWith [(80, 0xF0)]).mem.read 80 = 0xF0 := by decide

/-- A state in the middle of a run: one return address on the stack. -/
theorem witness_StepKeepsTheInvariant : callee.Inv ∧ (after (step callee)).isSome = true := by
  refine ⟨⟨by decide, by decide, fun k hk => ?_, by decide, by decide, by decide⟩, by decide⟩
  have h0 : k = 0 := by
    apply Fin.ext
    have : callee.sp.val = 1 := by decide
    have : (0 : Fin 16).val = 0 := by decide
    omega
  subst h0
  decide
theorem witness_ReachableStatesMeetTheInvariant (p : Config.Params) :
    Reachable p (perform p (.load 0x200 [0x12, 0x00]) (State.resetWith p.resetMemImage)).1 := .op _ .reset
theorem witness_TickReportsByRuleR60 :
    fatalCondition (prog 0x00EE) = some (.stackUnderflow 0) ∧ fatalCondition (prog 0x0000) = none := by decide
theorem witness_FatalOperationsLeaveNoTrace :
    (perform {} .tick (prog 0x00EE)).2 = .fatal (.stackUnderflow 0) ∧
    (perform {} (.load 0x1000 [1]) State.reset).2 = .fatal (.boundsViolation 4096) := by decide
theorem witness_TickDelayCountsDownToZero :
    (State.reset.setDt 255).dt.toNat > 0 ∧ State.reset.dt.toNat = 0 := by decide
theorem witness_TickSoundCountsDownToZero :
    (State.reset.setSt 1).st.toNat > 0 ∧ State.reset.st.toNat = 0 := by decide
theorem witness_LoadWritesExactlyTheBuffer :
    State.reset.mem.wf ∧ 0xFFE + ([0x12, 0x34] : List Byte).length ≤ 4096 ∧ 4096 + ([] : List Byte).length ≤ 4096 := by
  decide
theorem witness_LoadThatDoesNotFitWritesNothing : 4096 < 0xFFF + ([0x80, 0x81] : List Byte).length := by decide
theorem witness_LoadedCodeIsFetchedNext :
    State.reset.mem.wf ∧ 0x1FF + ([0, 0x12, 0x34] : List Byte).length ≤ 4096 ∧
    State.reset.pc.toNat = 0x1FF + 1 ∧ 1 + 1 < ([0, 0x12, 0x34] : List Byte).length := by decide
theorem witness_InspectionSeesTheWholeState : callee.mem.wf := by decide

end Sys2Proof.Tests
end

/-! PROOFS. The checked byte accesses of spec/20_memory.md (R31, R34). -/

namespace Sys2Proof.Machine

/-! ### One equation for each side of the range check -/

/-- A checked byte read inside memory (R31). -/
theorem memRead1_inside {a : Nat} (m : Memory) (h : a ≤ 4095) : memRead1 m a = .ok (m.read a) :=
  if_neg (Nat.not_lt.2 h)

/-- A checked byte read beyond memory (R31, R91). -/
theorem memRead1_outside {a : Nat} (m : Memory) (h : 4095 < a) : memRead1 m a = .error (.boundsViolation a) :=
  if_pos h

/-- A checked byte write inside memory (R34). -/
theorem memWrite1_inside {a : Nat} (m : Memory) (v : Byte) (h : a ≤ 4095) : memWrite1 m a v = .ok (m.write a v) :=
  if_neg (Nat.not_lt.2 h)

/-- A checked byte write beyond memory (R34, R91). -/
theorem memWrite1_outside {a : Nat} (m : Memory) (v : Byte) (h : 4095 < a) :
    memWrite1 m a v = .error (.boundsViolation a) :=
  if_pos h

/-! ### The two cases of a read after a write -/

/-- The byte written is read back (R34). -/
theorem Memory.read_write_same {m : Memory} (hm : m.wf) (a : Nat) (v : Byte) : (m.write a v).read a = v := by
  rw [Memory.read_write hm, if_pos rfl]

/-- A write leaves every other byte as it was (R34). -/
theorem Memory.read_write_other {m : Memory} (hm : m.wf) {a x : Nat} (v : Byte) (h : x ≠ a) :
    (m.write a v).read x = m.read x := by
  rw [Memory.read_write hm, if_neg h]

/-! ### The obligations -/

/-- Settles O10: inside memory the checked write is the plain one, which the law of memory describes. -/
theorem byteWriteStoresOneByte : Obligations.ByteWriteStoresOneByte := by
  intro m addr v hm
  constructor
  · intro h
    exact ⟨m.write addr v, memWrite1_inside m v h, Memory.read_write_same hm addr v,
      fun _ hne => Memory.read_write_other hm v hne⟩
  · exact memWrite1_outside m v

/-- Settles O8: the two sides of the range check. -/
theorem byteReadIsRangeChecked : Obligations.ByteReadIsRangeChecked :=
  fun m _ => ⟨memRead1_inside m, memRead1_outside m⟩

end Sys2Proof.Machine

/-! PROOFS. The fields of an instruction word (R46). -/

namespace Sys2Proof

/-! ### The value of each field -/

/-- A bit-slice as a number: a quotient by the power of two below it, cut to the slice's width. -/
theorem Word.toNat_slice (w : Word) (low len : Nat) :
    (w.extractLsb' low len).toNat = w.toNat / 2 ^ low % 2 ^ len := by
  rw [BitVec.extractLsb'_toNat, Nat.shiftRight_eq_div_pow]

/-- The top slice needs no cut: a word is below `16 * 4096`. -/
@[simp] theorem fieldOp_toNat (w : Word) : (fieldOp w).toNat = w.toNat / 4096 := by
  have hw : w.toNat / 4096 < 16 := Nat.div_lt_of_lt_mul w.isLt
  exact (Word.toNat_slice w 12 4).trans (Nat.mod_eq_of_lt hw)

@[simp] theorem fieldX_val (w : Word) : (fieldX w).val = w.toNat / 256 % 16 := Word.toNat_slice w 8 4

@[simp] theorem fieldY_val (w : Word) : (fieldY w).val = w.toNat / 16 % 16 := Word.toNat_slice w 4 4

/-- The slices that start at bit 0 are remainders alone. -/
theorem Word.toNat_slice_zero (w : Word) (len : Nat) : (w.extractLsb' 0 len).toNat = w.toNat % 2 ^ len := by
  rw [Word.toNat_slice, pow_zero, Nat.div_one]

@[simp] theorem fieldN_val (w : Word) : (fieldN w).val = w.toNat % 16 := Word.toNat_slice_zero w 4

@[simp] theorem fieldNn_toNat (w : Word) : (fieldNn w).toNat = w.toNat % 256 := Word.toNat_slice_zero w 8

@[simp] theorem fieldNnn_toNat (w : Word) : (fieldNnn w).toNat = w.toNat % 4096 := Word.toNat_slice_zero w 12

/-! ### The two overlaps -/

/-- `nn = {y, n}`: a remainder by `16 * 16` has the two remainders by 16 as its digits (R46). -/
theorem fieldNn_eq_y_n (w : Word) : (fieldNn w).toNat = (fieldY w).val * 16 + (fieldN w).val := by
  have digits : w.toNat % 256 = w.toNat % 16 + 16 * (w.toNat / 16 % 16) := Nat.mod_mul (a := 16) (b := 16)
  rw [fieldNn_toNat, fieldY_val, fieldN_val, digits, Nat.add_comm, Nat.mul_comm]

/-- `nnn = {x, nn}`: the same for a remainder by `256 * 16` (R46). -/
theorem fieldNnn_eq_x_nn (w : Word) : (fieldNnn w).toNat = (fieldX w).val * 256 + (fieldNn w).toNat := by
  have digits : w.toNat % 4096 = w.toNat % 256 + 256 * (w.toNat / 256 % 16) := Nat.mod_mul (a := 256) (b := 16)
  rw [fieldNnn_toNat, fieldX_val, fieldNn_toNat, digits, Nat.add_comm, Nat.mul_comm]

/-! ### The obligation -/

/-- Settles O1: the value of each field, then the two overlaps. -/
theorem fieldsAreTheWordsBitSlices : Obligations.FieldsAreTheWordsBitSlices := fun w =>
  ⟨fieldOp_toNat w, fieldX_val w, fieldY_val w, fieldN_val w, fieldNn_toNat w, fieldNnn_toNat w,
    fieldNn_eq_y_n w, fieldNnn_eq_x_nn w⟩

end Sys2Proof

/-! PROOFS. The control-flow instruction JP (R70). -/

namespace Sys2Proof.Machine

/-- What a jump does, from any state (R70). -/
theorem exec_jp (nnn : Addr12) (s : State) : exec (.jp nnn) s = .next (s.setPc (addrOperand nnn)) := rfl

/-- The frame of the `pc` write, over the whole inspection list (R107). -/
theorem unchangedBut_setPc (s : State) (a : Word) : UnchangedBut (fun e => e = .pc) s (s.setPc a) := by
  intro e he
  cases e with
  | pc => exact absurd rfl he
  | _ => rfl

/-! ### The obligation -/

/-- Settles O15: a jump is one write of `pc`, so its frame is that write's. -/
theorem jpSetsPc : Obligations.JpSetsPc := fun nnn s =>
  ⟨s.setPc (addrOperand nnn), exec_jp nnn s, addrOperand_toNat nnn, unchangedBut_setPc s (addrOperand nnn)⟩

end Sys2Proof.Machine

/-! PROOFS. The register instructions LD I, LD Vx and ADD Vx (R75, R76, R77). -/

namespace Sys2Proof.Machine

/-! ### What each instruction does, from any state -/

/-- LD I is one write of `I` (R75). -/
theorem exec_ldI (nnn : Addr12) (s : State) : exec (.ldI nnn) s = .next (s.setI (addrOperand nnn)) := rfl

/-- LD Vx is one register write (R76). -/
theorem exec_ldVx (x : RegIdx) (nn : Byte) (s : State) : exec (.ldVx x nn) s = .next (s.setV x nn) := rfl

/-- ADD Vx is one register write, of the wrapped sum (R77). -/
theorem exec_addVx (x : RegIdx) (nn : Byte) (s : State) :
    exec (.addVx x nn) s = .next (s.setV x (addWrap8 (s.getV x) nn)) := rfl

/-- The wrapped sum is already below 256, so the byte holds it as it is (R7, R77). -/
@[simp] theorem addWrap8_toNat (a b : Byte) : (addWrap8 a b).toNat = (a.toNat + b.toNat) % 256 := by
  rw [addWrap8, BitVec.toNat_ofNat]
  exact Nat.mod_mod _ 256

/-! ### The frames of the two writes, over the whole inspection list (R107) -/

/-- The frame of the `I` write. -/
theorem unchangedBut_setI (s : State) (a : Word) : UnchangedBut (fun e => e = .i) s (s.setI a) := by
  intro e he
  cases e with
  | i => exact absurd rfl he
  | _ => rfl

/-- The frame of a register write: any other register, VF among them, keeps its value. -/
theorem unchangedBut_setV (s : State) (x : RegIdx) (b : Byte) :
    UnchangedBut (fun e => e = .v x) s (s.setV x b) := by
  intro e he
  cases e with
  | v q =>
    have hq : q ≠ x := fun h => he (congrArg Element.v h)
    exact congrArg BitVec.toNat (State.getV_setV_ne s hq b)
  | _ => rfl

/-! ### The obligations -/

/-- Settles O22: the operand keeps its value, and the frame is that of the `I` write. -/
theorem ldISetsIndex : Obligations.LdISetsIndex := fun nnn s =>
  ⟨s.setI (addrOperand nnn), exec_ldI nnn s, addrOperand_toNat nnn, unchangedBut_setI s (addrOperand nnn)⟩

/-- Settles O23: the register write with the immediate itself. -/
theorem ldVxSetsRegister : Obligations.LdVxSetsRegister := fun x nn s =>
  ⟨s.setV x nn, exec_ldVx x nn s, State.getV_setV_same s x nn, unchangedBut_setV s x nn⟩

/-- Settles O24: the register write with the wrapped sum; its frame leaves no room for a carry into VF. -/
theorem addVxWrapsWithoutCarry : Obligations.AddVxWrapsWithoutCarry := by
  intro x nn s
  refine ⟨s.setV x (addWrap8 (s.getV x) nn), exec_addVx x nn s, ?_, unchangedBut_setV s x _⟩
  rw [State.getV_setV_same, addWrap8_toNat]

end Sys2Proof.Machine

/-! PROOFS. The display instruction CLS (R80). -/

namespace Sys2Proof.Machine

/-- What CLS does, from any state: one replacement of the framebuffer by the dark one (R80). -/
theorem exec_cls (s : State) : exec .cls s = .next (s.setFb Framebuffer.dark) := rfl

/-- The frame of a framebuffer replacement, over the whole inspection list (R107): only cells can change. -/
theorem unchangedBut_setFb (s : State) (f : Framebuffer) :
    UnchangedBut (fun e => ∃ r c, e = .fb r c) s (s.setFb f) := by
  intro e he
  cases e with
  | fb r c => exact absurd ⟨r, c, rfl⟩ he
  | _ => rfl

/-! ### The obligation -/

/-- Settles O25: the dark framebuffer reads unlit everywhere, and the frame is that of the replacement. -/
theorem clsClearsEveryCell : Obligations.ClsClearsEveryCell := fun s =>
  ⟨s.setFb Framebuffer.dark, exec_cls s, Framebuffer.getCell_dark s, unchangedBut_setFb s Framebuffer.dark⟩

end Sys2Proof.Machine

/-! PROOFS. The timer operations TICK_DELAY and TICK_SOUND (R102, R103). -/

namespace Sys2Proof.Machine

/-! ### The shared countdown -/

/-- A timer that is not at 0 loses exactly 1 (R102, R103). -/
theorem countDown_toNat_add_one {b : Byte} (h : b.toNat > 0) : (countDown b).toNat + 1 = b.toNat := by
  have hb : b.toNat - 1 < 2 ^ 8 := Nat.lt_of_le_of_lt (Nat.sub_le _ 1) b.isLt
  rw [countDown, if_pos h, BitVec.toNat_ofNat, Nat.mod_eq_of_lt hb]
  exact Nat.sub_add_cancel h

/-- A timer at 0 stays there; it does not wrap (R102, R103). -/
theorem countDown_of_toNat_eq_zero {b : Byte} (h : b.toNat = 0) : countDown b = b :=
  if_neg (Nat.not_lt.2 h.le)

/-! ### What each operation does, from any state -/

/-- TICK_DELAY is one write of `dt`, and its outcome is always Ok (R102). -/
theorem perform_tickDelay (p : Config.Params) (s : State) :
    perform p .tickDelay s = (s.setDt (countDown s.dt), .ok) := rfl

/-- TICK_SOUND is one write of `st`, and its outcome is always Ok (R103). -/
theorem perform_tickSound (p : Config.Params) (s : State) :
    perform p .tickSound s = (s.setSt (countDown s.st), .ok) := rfl

/-! ### Writing a timer's own value, and the frames over the whole inspection list (R107) -/

/-- Writing back the delay timer's own value is no write at all. -/
theorem State.setDt_self (s : State) : s.setDt s.dt = s := rfl

/-- Writing back the sound timer's own value is no write at all. -/
theorem State.setSt_self (s : State) : s.setSt s.st = s := rfl

/-- The frame of the `dt` write: the sound timer is among the unchanged. -/
theorem unchangedBut_setDt (s : State) (b : Byte) : UnchangedBut (fun e => e = .dt) s (s.setDt b) := by
  intro e he
  cases e with
  | dt => exact absurd rfl he
  | _ => rfl

/-- The frame of the `st` write: the delay timer is among the unchanged. -/
theorem unchangedBut_setSt (s : State) (b : Byte) : UnchangedBut (fun e => e = .st) s (s.setSt b) := by
  intro e he
  cases e with
  | st => exact absurd rfl he
  | _ => rfl

/-! ### The obligations -/

/-- Settles O43: the two cases of the countdown, and the frame of the one write. -/
theorem tickDelayCountsDownToZero : Obligations.TickDelayCountsDownToZero := by
  intro p s
  refine ⟨s.setDt (countDown s.dt), perform_tickDelay p s, countDown_toNat_add_one, ?_, unchangedBut_setDt s _⟩
  intro h0
  rw [countDown_of_toNat_eq_zero h0, State.setDt_self]

/-- Settles O44: the same countdown, written to the sound timer. -/
theorem tickSoundCountsDownToZero : Obligations.TickSoundCountsDownToZero := by
  intro p s
  refine ⟨s.setSt (countDown s.st), perform_tickSound p s, countDown_toNat_add_one, ?_, unchangedBut_setSt s _⟩
  intro h0
  rw [countDown_of_toNat_eq_zero h0, State.setSt_self]

end Sys2Proof.Machine

/-! PROOFS. The decoder and the encoder as inverses, and the opcode map (R45, R49 to R53). -/

namespace Sys2Proof

/-! ### The fields of a word put together, and a word put together from its fields -/

/-- A word made of two parts, as a number. -/
theorem append_toNat {m n : Nat} (hi : BitVec m) (lo : BitVec n) :
    (hi ++ lo).toNat = hi.toNat * 2 ^ n + lo.toNat := by
  rw [BitVec.toNat_append, ← Nat.shiftLeft_add_eq_or_of_lt lo.isLt, Nat.shiftLeft_eq]

/-- The leading nibble is the one a word's number names. -/
theorem fieldOp_eq_iff (w : Word) (op : BitVec 4) : fieldOp w = op ↔ w.toNat / 4096 = op.toNat := by
  rw [← BitVec.toNat_inj, fieldOp_toNat]

/-- The fields of a nibble and an address. -/
theorem fields_op_nnn (op : BitVec 4) (nnn : Addr12) {w : Word} (hw : w = op ++ nnn) :
    fieldOp w = op ∧ fieldNnn w = nnn := by
  have h : w.toNat = op.toNat * 4096 + nnn.toNat := hw ▸ append_toNat op nnn
  constructor
  · rw [fieldOp_eq_iff, h]
    omega
  · apply BitVec.eq_of_toNat_eq
    rw [fieldNnn_toNat, h]
    omega

/-- A nibble, a register and an immediate, as a number. -/
theorem op_x_nn_toNat (op : BitVec 4) (x : RegIdx) (nn : Byte) :
    (op ++ BitVec.ofFin (w := 4) x ++ nn : Word).toNat = op.toNat * 4096 + x.val * 256 + nn.toNat := by
  have hx : (BitVec.ofFin (w := 4) x).toNat = x.val := rfl
  rw [append_toNat, append_toNat, hx]
  omega

/-- The fields of a nibble, a register and an immediate. -/
theorem fields_op_x_nn (op : BitVec 4) (x : RegIdx) (nn : Byte) {w : Word}
    (hw : w = op ++ BitVec.ofFin (w := 4) x ++ nn) : fieldOp w = op ∧ fieldX w = x ∧ fieldNn w = nn := by
  have h : w.toNat = op.toNat * 4096 + x.val * 256 + nn.toNat := hw ▸ op_x_nn_toNat op x nn
  refine ⟨?_, Fin.ext ?_, BitVec.eq_of_toNat_eq ?_⟩
  · rw [fieldOp_eq_iff, h]
    omega
  · rw [fieldX_val, h]
    omega
  · rw [fieldNn_toNat, h]
    omega

/-- A nibble, two registers and a row count, as a number. -/
theorem op_x_y_n_toNat (op : BitVec 4) (x y : RegIdx) (n : Fin 16) :
    (op ++ BitVec.ofFin (w := 4) x ++ BitVec.ofFin (w := 4) y ++ BitVec.ofFin (w := 4) n : Word).toNat =
      op.toNat * 4096 + x.val * 256 + y.val * 16 + n.val := by
  have hv (k : Fin 16) : (BitVec.ofFin (w := 4) k).toNat = k.val := rfl
  simp only [append_toNat, hv]
  omega

/-- The fields of a nibble, two registers and a row count. -/
theorem fields_op_x_y_n (op : BitVec 4) (x y : RegIdx) (n : Fin 16) {w : Word}
    (hw : w = op ++ BitVec.ofFin (w := 4) x ++ BitVec.ofFin (w := 4) y ++ BitVec.ofFin (w := 4) n) :
    fieldOp w = op ∧ fieldX w = x ∧ fieldY w = y ∧ fieldN w = n := by
  have h : w.toNat = op.toNat * 4096 + x.val * 256 + y.val * 16 + n.val := hw ▸ op_x_y_n_toNat op x y n
  refine ⟨?_, Fin.ext ?_, Fin.ext ?_, Fin.ext ?_⟩
  · rw [fieldOp_eq_iff, h]
    omega
  · rw [fieldX_val, h]
    omega
  · rw [fieldY_val, h]
    omega
  · rw [fieldN_val, h]
    omega

/-- A word is its nibble and its address. -/
theorem fieldOp_append_fieldNnn (w : Word) : (fieldOp w ++ fieldNnn w : Word) = w := by
  apply BitVec.eq_of_toNat_eq
  rw [append_toNat, fieldOp_toNat, fieldNnn_toNat]
  omega

/-- A word is its nibble, its register and its immediate. -/
theorem fieldOp_append_fieldX_fieldNn (w : Word) :
    (fieldOp w ++ BitVec.ofFin (w := 4) (fieldX w) ++ fieldNn w : Word) = w := by
  apply BitVec.eq_of_toNat_eq
  rw [op_x_nn_toNat, fieldOp_toNat, fieldX_val, fieldNn_toNat]
  omega

/-- A word is its nibble, its two registers and its row count. -/
theorem fieldOp_append_fieldX_fieldY_fieldN (w : Word) :
    (fieldOp w ++ BitVec.ofFin (w := 4) (fieldX w) ++ BitVec.ofFin (w := 4) (fieldY w) ++
      BitVec.ofFin (w := 4) (fieldN w) : Word) = w := by
  apply BitVec.eq_of_toNat_eq
  rw [op_x_y_n_toNat, fieldOp_toNat, fieldX_val, fieldY_val, fieldN_val]
  omega

/-! ### The tests of the opcode map -/

/-- The nibble mask's test says what the leading nibble is (R49). -/
theorem and_nibble_mask_eq_iff (w : Word) (op : BitVec 4) : w &&& 0xF000#16 = op ++ 0#12 ↔ fieldOp w = op := by
  calc w &&& 0xF000#16 = op ++ 0#12
      ↔ (fieldOp w ++ fieldNnn w : Word) &&& 0xF000#16 = op ++ 0#12 := by rw [fieldOp_append_fieldNnn]
    _ ↔ fieldOp w = op := by rw [and_nibble_mask, BitVec.append_left_inj]

/-- The same as a Boolean, for the six nibble patterns. -/
theorem beq_nibble_mask (w : Word) (op : BitVec 4) :
    (w &&& 0xF000#16 == (op ++ 0#12 : Word)) = (fieldOp w == op) := by
  rw [Bool.eq_iff_iff, beq_iff_eq, beq_iff_eq, and_nibble_mask_eq_iff]

/-- The eight recognised patterns: two whole words and six leading nibbles (R49). -/
theorem recognised_eq (w : Word) :
    recognised w = (w == 0x00E0#16 || w == 0x00EE#16 || fieldOp w == 0x1#4 || fieldOp w == 0x2#4 ||
      fieldOp w == 0x6#4 || fieldOp w == 0x7#4 || fieldOp w == 0xA#4 || fieldOp w == 0xD#4) := by
  simp only [← beq_nibble_mask]
  rfl

/-- The opcode map of R49 as a relation: which words stand for which instruction. -/
inductive Decodes : Word → Instr → Prop where
  | cls : Decodes 0x00E0#16 .cls
  | ret : Decodes 0x00EE#16 .ret
  | jp {w : Word} : fieldOp w = 0x1#4 → Decodes w (.jp (fieldNnn w))
  | call {w : Word} : fieldOp w = 0x2#4 → Decodes w (.call (fieldNnn w))
  | ldVx {w : Word} : fieldOp w = 0x6#4 → Decodes w (.ldVx (fieldX w) (fieldNn w))
  | addVx {w : Word} : fieldOp w = 0x7#4 → Decodes w (.addVx (fieldX w) (fieldNn w))
  | ldI {w : Word} : fieldOp w = 0xA#4 → Decodes w (.ldI (fieldNnn w))
  | drw {w : Word} : fieldOp w = 0xD#4 → Decodes w (.drw (fieldX w) (fieldY w) (fieldN w))
  | unrecognised {w : Word} : recognised w = false → Decodes w (.unrecognised w)

/-- Everything the decoder can answer (R50). -/
theorem decodes_decode (w : Word) : Decodes w (decode w) := by
  unfold decode
  split
  · subst w; exact .cls
  split
  · subst w; exact .ret
  split
  · exact .jp ‹_›
  · exact .call ‹_›
  · exact .ldVx ‹_›
  · exact .addVx ‹_›
  · exact .ldI ‹_›
  · exact .drw ‹_›
  · refine .unrecognised ?_
    rw [recognised_eq]
    simp_all

/-- A word with a leading nibble other than 0 is neither CLS nor RET. -/
theorem ne_of_fieldOp_ne_zero {w : Word} (h : fieldOp w ≠ 0x0#4) : w ≠ 0x00E0#16 ∧ w ≠ 0x00EE#16 :=
  ⟨fun e => h (by rw [e]; decide), fun e => h (by rw [e]; decide)⟩

/-- The map is a function, and the decoder computes it. -/
theorem Decodes.decode_eq {w : Word} {i : Instr} (h : Decodes w i) : decode w = i := by
  have nibble {op : BitVec 4} (hop : fieldOp w = op) (h0 : op ≠ 0#4) : w ≠ 0x00E0#16 ∧ w ≠ 0x00EE#16 :=
    ne_of_fieldOp_ne_zero (hop ▸ h0)
  cases h with
  | cls => rfl
  | ret => rfl
  | unrecognised hr =>
    simp only [recognised_eq, Bool.or_eq_false_iff, beq_eq_false_iff_ne] at hr
    simp [decode, hr]
  | jp hop => simp [decode, hop, nibble hop (by decide)]
  | call hop => simp [decode, hop, nibble hop (by decide)]
  | ldVx hop => simp [decode, hop, nibble hop (by decide)]
  | addVx hop => simp [decode, hop, nibble hop (by decide)]
  | ldI hop => simp [decode, hop, nibble hop (by decide)]
  | drw hop => simp [decode, hop, nibble hop (by decide)]

/-! ### Encoder and decoder -/

/-- The word the encoder gives stands for the instruction (R54). -/
theorem decodes_encode {i : Instr} (h : i.wf = true) : Decodes (encode i) i := by
  cases i with
  | cls => exact .cls
  | ret => exact .ret
  | unrecognised w => exact .unrecognised (by simpa [Instr.wf, encode] using h)
  | jp nnn =>
    obtain ⟨hop, hnnn⟩ := fields_op_nnn (w := encode (.jp nnn)) 0x1#4 nnn rfl
    simpa only [hnnn] using Decodes.jp hop
  | call nnn =>
    obtain ⟨hop, hnnn⟩ := fields_op_nnn (w := encode (.call nnn)) 0x2#4 nnn rfl
    simpa only [hnnn] using Decodes.call hop
  | ldI nnn =>
    obtain ⟨hop, hnnn⟩ := fields_op_nnn (w := encode (.ldI nnn)) 0xA#4 nnn rfl
    simpa only [hnnn] using Decodes.ldI hop
  | ldVx x nn =>
    obtain ⟨hop, hx, hnn⟩ := fields_op_x_nn (w := encode (.ldVx x nn)) 0x6#4 x nn rfl
    simpa only [hx, hnn] using Decodes.ldVx hop
  | addVx x nn =>
    obtain ⟨hop, hx, hnn⟩ := fields_op_x_nn (w := encode (.addVx x nn)) 0x7#4 x nn rfl
    simpa only [hx, hnn] using Decodes.addVx hop
  | drw x y n =>
    obtain ⟨hop, hx, hy, hn⟩ := fields_op_x_y_n (w := encode (.drw x y n)) 0xD#4 x y n rfl
    simpa only [hx, hy, hn] using Decodes.drw hop

/-- Decoding undoes encoding (R54). -/
theorem decode_encode {i : Instr} (h : i.wf = true) : decode (encode i) = i := (decodes_encode h).decode_eq

/-- What a word stands for is well-formed (R52). -/
theorem Decodes.wf {w : Word} {i : Instr} (h : Decodes w i) : i.wf = true := by
  cases h with
  | unrecognised hr => simp [Instr.wf, hr]
  | _ => rfl

/-- What a word stands for has that word (R53): the fields put together again are the word. -/
theorem Decodes.encode_eq {w : Word} {i : Instr} (h : Decodes w i) : encode i = w := by
  cases h with
  | cls => rfl
  | ret => rfl
  | unrecognised _ => rfl
  | jp hop | call hop | ldI hop =>
    rw [encode, ← hop]
    exact fieldOp_append_fieldNnn w
  | ldVx hop | addVx hop =>
    rw [encode, ← hop]
    exact fieldOp_append_fieldX_fieldNn w
  | drw hop =>
    rw [encode, ← hop]
    exact fieldOp_append_fieldX_fieldY_fieldN w

/-! ### The rows of the opcode map -/

/-- A recognised row is the one its mnemonic names. -/
theorem row_mnemonic : ∀ a ∈ recognisedRows, a.mnemonic.row = a := by decide

/-- A row of the recognised ones is not the catch-all. -/
theorem mem_recognisedRows_of_mnemonic : ∀ m : Mnemonic, m ≠ .UNRECOGNISED → m.row ∈ recognisedRows := by
  intro m hm
  cases m with
  | UNRECOGNISED => exact absurd rfl hm
  | _ => decide

/-- A whole-word row selects one word. -/
theorem eq_of_selects_word {m : Mnemonic} {p w : Word} (h : OpcodeRow.selects ⟨m, p, 0xFFFF#16⟩ w = true) : w = p := by
  have hall : (0xFFFF#16 : Word) = BitVec.allOnes 16 := by decide
  rwa [OpcodeRow.selects, hall, BitVec.and_allOnes, beq_iff_eq] at h

/-- A nibble row selects the words with its leading nibble. -/
theorem fieldOp_of_selects_nibble {m : Mnemonic} {w : Word} (op : BitVec 4)
    (h : OpcodeRow.selects ⟨m, op ++ 0#12, 0xF000#16⟩ w = true) : fieldOp w = op :=
  (and_nibble_mask_eq_iff w op).1 (beq_iff_eq.1 h)

/-- A recognised row that selects a word is the row of the word's instruction. -/
theorem mnemonic_of_selects {a : OpcodeRow} {w : Word} (ha : a ∈ recognisedRows) (hs : a.selects w = true) :
    (decode w).mnemonic = a.mnemonic := by
  simp only [recognisedRows, List.mem_cons, List.not_mem_nil, or_false] at ha
  rcases ha with rfl | rfl | rfl | rfl | rfl | rfl | rfl | rfl
  · rw [eq_of_selects_word hs]; rfl
  · rw [eq_of_selects_word hs]; rfl
  · rw [(Decodes.jp (fieldOp_of_selects_nibble 0x1#4 hs)).decode_eq]; rfl
  · rw [(Decodes.call (fieldOp_of_selects_nibble 0x2#4 hs)).decode_eq]; rfl
  · rw [(Decodes.ldVx (fieldOp_of_selects_nibble 0x6#4 hs)).decode_eq]; rfl
  · rw [(Decodes.addVx (fieldOp_of_selects_nibble 0x7#4 hs)).decode_eq]; rfl
  · rw [(Decodes.ldI (fieldOp_of_selects_nibble 0xA#4 hs)).decode_eq]; rfl
  · rw [(Decodes.drw (fieldOp_of_selects_nibble 0xD#4 hs)).decode_eq]; rfl

/-- An instruction's own row selects its word (R49). -/
theorem row_selects_encode (i : Instr) (h : i.wf = true) : i.mnemonic.row.selects (encode i) = true := by
  cases i with
  | cls => exact Laws.OpcodeRow.cls h
  | ret => exact Laws.OpcodeRow.ret h
  | jp nnn => exact Laws.OpcodeRow.jp nnn h
  | call nnn => exact Laws.OpcodeRow.call nnn h
  | ldVx x nn => exact Laws.OpcodeRow.ldVx x nn h
  | addVx x nn => exact Laws.OpcodeRow.addVx x nn h
  | ldI nnn => exact Laws.OpcodeRow.ldI nnn h
  | drw x y n => exact Laws.OpcodeRow.drw x y n h
  | unrecognised w => exact Laws.OpcodeRow.unrecognised w h

/-- The row of a word's instruction selects the word. -/
theorem decode_row_selects (w : Word) : (decode w).mnemonic.row.selects w = true := by
  have h := row_selects_encode (decode w) (decodes_decode w).wf
  rwa [(decodes_decode w).encode_eq] at h

/-! ### The obligations -/

/-- Settles O3: the encoder's word stands for the instruction, and the decoder computes what a word stands for. -/
theorem decodeInvertsEncode : Obligations.DecodeInvertsEncode := fun _ => decode_encode

/-- Settles O4: both facts hold of whatever a word stands for. -/
theorem encodeInvertsDecode : Obligations.EncodeInvertsDecode := fun w =>
  ⟨(decodes_decode w).wf, (decodes_decode w).encode_eq⟩

/-- Settles O5: the first recognised row that selects the word is the decoded instruction's; when there is none, the
instruction's own row, which does select the word, can only be the catch-all. -/
theorem decodeTakesFirstMatchingRow : Obligations.DecodeTakesFirstMatchingRow := by
  intro w
  rw [opcodeRows, List.find?_append]
  cases hfind : recognisedRows.find? (fun row => row.selects w) with
  | some a =>
    have hmem := List.mem_of_find?_eq_some hfind
    have hsel : a.selects w = true := List.find?_some (p := fun row : OpcodeRow => row.selects w) hfind
    simp [mnemonic_of_selects hmem hsel]
  | none =>
    have hun : (decode w).mnemonic = .UNRECOGNISED := by
      by_contra hne
      exact List.find?_eq_none.1 hfind _ (mem_recognisedRows_of_mnemonic _ hne) (decode_row_selects w)
    simp [OpcodeRow.selects, hun]

/-- Settles O6: both rows are the row of the word's one instruction. -/
theorem recognisedRowsNeverOverlap : Obligations.RecognisedRowsNeverOverlap := by
  intro w a ha b hb hsa hsb
  calc a = (decode w).mnemonic.row := by rw [mnemonic_of_selects ha hsa, row_mnemonic a ha]
    _ = b := by rw [mnemonic_of_selects hb hsb, row_mnemonic b hb]

/-- Settles O7: two bytes make the encoder's word; with fewer, only the refusal of the byte decoder applies. -/
theorem decodeReadsExactlyTwoBytes : Obligations.DecodeReadsExactlyTwoBytes := by
  constructor
  · intro i rest h
    have hw : decode (composeWord (highByte (encode i)) (lowByte (encode i))) = i := by
      rw [Machine.composeWord_bytes, decode_encode h]
    exact congrArg (fun j => Except.ok (j, rest)) hw
  · intro bs h
    match bs, h with
    | [], _ => rfl
    | [_], _ => rfl

/-- Settles O2: each word evaluates. -/
theorem writtenOutWordsDecode : Obligations.WrittenOutWordsDecode := by
  unfold Obligations.WrittenOutWordsDecode
  decide

end Sys2Proof

/-! PROOFS. Memory: the checked two-byte read (R32) and the uniqueness of the canonical form (log entry 17). -/

namespace Sys2Proof.Machine

/-! ### The two-byte read -/

/-- A big-endian word as a number (R33). -/
@[simp] theorem composeWord_toNat (hi lo : Byte) : (composeWord hi lo).toNat = hi.toNat * 256 + lo.toNat :=
  append_toNat hi lo

/-- A checked two-byte read inside memory (R32). -/
theorem memRead2_inside {a : Nat} (m : Memory) (h : a ≤ 4094) :
    memRead2 m a = .ok (composeWord (m.read a) (m.read (a + 1))) :=
  if_neg (by omega)

/-- A checked two-byte read beyond memory (R32, R91). -/
theorem memRead2_outside {a : Nat} (m : Memory) (h : 4095 ≤ a) : memRead2 m a = .error (.boundsViolation (a + 1)) :=
  if_pos (by omega)

/-! ### The entries of a canonical memory are what it reads -/

/-- A byte that reads as other than 0 is listed. -/
theorem Memory.mem_of_read_ne_zero {m : Memory} {a : Nat} (h : m.read a ≠ 0#8) : (a, m.read a) ∈ m := by
  induction m with
  | nil => exact absurd (Memory.read_nil a) h
  | cons c rest ih =>
    rw [Memory.read] at h ⊢
    split at h
    · subst a
      simp
    · rw [if_neg ‹_›]
      exact List.mem_cons_of_mem _ (ih h)

/-- In canonical form a listed byte is the one read. -/
theorem Memory.read_of_mem {m : Memory} (hm : m.wf) {c : Host.Cell} (h : c ∈ m) : m.read c.1 = c.2 := by
  induction m with
  | nil => cases h
  | cons d rest ih =>
    obtain ⟨hrise, hbytes⟩ := hm
    obtain ⟨hfirst, hrest⟩ := List.pairwise_cons.1 hrise
    rw [Memory.read]
    rcases List.mem_cons.1 h with rfl | hc
    · exact if_pos rfl
    · rw [if_neg (Nat.ne_of_lt (hfirst c hc))]
      exact ih ⟨hrest, fun e he => hbytes e (List.mem_cons_of_mem _ he)⟩ hc

/-- What a canonical memory lists: the bytes other than 0 at the addresses that exist. -/
theorem Memory.mem_iff_read {m : Memory} (hm : m.wf) (c : Host.Cell) :
    c ∈ m ↔ c.1 ≤ 4095 ∧ c.2 ≠ 0#8 ∧ m.read c.1 = c.2 := by
  constructor
  · intro hc
    obtain ⟨haddr, hbyte⟩ := hm.2 c hc
    exact ⟨Nat.le_of_lt_succ haddr, hbyte, Memory.read_of_mem hm hc⟩
  · rintro ⟨-, hbyte, hread⟩
    have hmem := Memory.mem_of_read_ne_zero (hread ▸ hbyte)
    rwa [hread] at hmem

/-- Canonical memories with the same entries are the same list, since both list them by rising address. -/
theorem Memory.eq_of_mem_iff {m m' : Memory} (hm : m.wf) (hm' : m'.wf) (h : ∀ c, c ∈ m ↔ c ∈ m') : m = m' := by
  have nodup {l : Memory} (hl : l.wf) : l.Nodup := hl.1.imp fun hlt e => Nat.ne_of_lt hlt (congrArg Prod.fst e)
  exact List.Perm.eq_of_pairwise (fun _ _ _ _ hab hba => absurd hab (Nat.lt_asymm hba)) hm.1 hm'.1
    ((List.perm_ext_iff_of_nodup (nodup hm) (nodup hm')).2 h)

/-! ### The obligations -/

/-- Settles O9: the two sides of the range check, and the number of a big-endian word. -/
theorem wordReadIsBigEndian : Obligations.WordReadIsBigEndian := fun m _ =>
  ⟨fun h => ⟨_, memRead2_inside m h, composeWord_toNat _ _⟩, memRead2_outside m⟩

/-- Settles O11: memories that read alike list the same bytes. -/
theorem canonicalMemoryIsUnique : Obligations.CanonicalMemoryIsUnique := by
  intro m m' hm hm' hread
  refine Memory.eq_of_mem_iff hm hm' fun c => ?_
  rw [Memory.mem_iff_read hm, Memory.mem_iff_read hm']
  exact and_congr_right fun ha => by rw [hread c.1 ha]

end Sys2Proof.Machine

/-! PROOFS. The execute phase and the step: one equation for each side of a condition, and the fatal conditions of a
step (R60, R61, R90, R96). -/

namespace Sys2Proof.Machine

/-! ### The stack instructions, by the stack pointer -/

/-- The stack is full or there is a next slot (R19). -/
theorem State.sp_full_or_room (s : State) : s.sp.val = 16 ∨ ∃ k : Fin 16, s.sp.val = k.val := by
  by_cases h : s.sp.val < 16
  · exact .inr ⟨⟨s.sp.val, h⟩, rfl⟩
  · exact .inl (by omega)

/-- The stack is empty or there is a top slot (R19). -/
theorem State.sp_empty_or_top (s : State) : s.sp.val = 0 ∨ ∃ k : Fin 16, s.sp.val = k.val + 1 := by
  by_cases h : s.sp.val = 0
  · exact .inl h
  · exact .inr ⟨⟨s.sp.val - 1, by omega⟩, by simp only; omega⟩

/-- CALL on a full stack (R71, R92). -/
theorem exec_call_full (nnn : Addr12) {s : State} (h : s.sp.val = 16) :
    exec (.call nnn) s = .fault (.stackOverflow 16) := by
  obtain ⟨-, he⟩ | ⟨k, hk, -⟩ := execCall_cases nnn s
  · exact he
  · omega

/-- CALL with room: the slot `sp` takes the `pc`, and `sp` rises (R71). -/
theorem exec_call_room (nnn : Addr12) {s : State} {k : Fin 16} (h : s.sp.val = k.val) :
    exec (.call nnn) s = .next (((s.setSlot k s.pc).setSp k.succ).setPc (addrOperand nnn)) := by
  obtain ⟨hfull, -⟩ | ⟨k', hk, n, hn, he⟩ := execCall_cases nnn s
  · omega
  · obtain rfl : k' = k := Fin.ext (hk.trans h)
    obtain rfl : n = k'.succ := Fin.ext (by rw [hn, h, Fin.val_succ])
    exact he

/-- RET on an empty stack (R72, R93). -/
theorem exec_ret_empty {s : State} (h : s.sp.val = 0) : exec .ret s = .fault (.stackUnderflow 0) := by
  obtain ⟨-, he⟩ | ⟨k, hk, -⟩ := execRet_cases s
  · exact he
  · omega

/-- RET with an entry: `sp` falls, and the top slot's value is the new `pc` (R72). -/
theorem exec_ret_top {s : State} {k : Fin 16} (h : s.sp.val = k.val + 1) :
    exec .ret s = .next ((s.setSp k.castSucc).setPc (s.getSlot k)) := by
  obtain ⟨hempty, -⟩ | ⟨k', hk, n, hn, he⟩ := execRet_cases s
  · omega
  · obtain rfl : k' = k := Fin.ext (by omega)
    obtain rfl : n = k'.castSucc := Fin.ext (by rw [Fin.val_castSucc]; omega)
    exact he

/-! ### The draw, by its bounds check -/

/-- DRW of a sprite that lies inside memory (R81). -/
theorem exec_drw_inside (x y : RegIdx) {n : Fin 16} {s : State} (h : ¬ spriteOutside s n) :
    exec (.drw x y n) s = .next (drawRows n.val (originRow s y) (originCol s x) (clearCollision s)) := by
  obtain ⟨hout, -⟩ | ⟨-, he⟩ := execDrw_cases x y n s
  · exact absurd hout h
  · exact he

/-- DRW of a sprite that does not (R81, R91). -/
theorem exec_drw_outside (x y : RegIdx) {n : Fin 16} {s : State} (h : spriteOutside s n) :
    exec (.drw x y n) s = .fault (.boundsViolation (s.i.toNat + n.val - 1)) := by
  obtain ⟨-, he⟩ | ⟨hin, -⟩ := execDrw_cases x y n s
  · exact he
  · exact absurd h hin

/-- A draw that completes had its sprite inside memory. -/
theorem not_spriteOutside_of_exec_drw {x y : RegIdx} {n : Fin 16} {s t : State} (h : exec (.drw x y n) s = .next t) :
    ¬ spriteOutside s n := by
  intro hout
  rw [exec_drw_outside x y hout] at h
  cases h

/-- A draw that completes writes VF and cells only. -/
theorem sameButDraw_of_exec_drw {x y : RegIdx} {n : Fin 16} {s t : State} (h : exec (.drw x y n) s = .next t) :
    SameButDraw s t := by
  rw [exec_drw_inside x y (not_spriteOutside_of_exec_drw h)] at h
  cases h
  exact (clearCollision_same s).trans (drawRows_same ..)

/-! ### Inversion: what an execute phase that completes has done -/

/-- A CALL that completes had room. -/
theorem exec_call_next {nnn : Addr12} {s t : State} (h : exec (.call nnn) s = .next t) :
    ∃ k : Fin 16, s.sp.val = k.val ∧ t = ((s.setSlot k s.pc).setSp k.succ).setPc (addrOperand nnn) := by
  obtain hfull | ⟨k, hk⟩ := s.sp_full_or_room
  · rw [exec_call_full nnn hfull] at h
    cases h
  · rw [exec_call_room nnn hk] at h
    cases h
    exact ⟨k, hk, rfl⟩

/-- A RET that completes had an entry to pop. -/
theorem exec_ret_next {s t : State} (h : exec .ret s = .next t) :
    ∃ k : Fin 16, s.sp.val = k.val + 1 ∧ t = (s.setSp k.castSucc).setPc (s.getSlot k) := by
  obtain hempty | ⟨k, hk⟩ := s.sp_empty_or_top
  · rw [exec_ret_empty hempty] at h
    cases h
  · rw [exec_ret_top hk] at h
    cases h
    exact ⟨k, hk, rfl⟩

/-! ### The step -/

/-- A step whose fetch lies inside memory runs the instruction at `pc` (R60, R61). -/
theorem step_inside {s : State} (h : s.pc.toNat ≤ 4094) : step s = exec (instrAt s) (s.setPc (s.pc + 2#16)) := by
  rw [step, fetch_inside h]
  rfl

/-- A step whose fetch does not (R61, R91). -/
theorem step_outside {s : State} (h : 4095 ≤ s.pc.toNat) : step s = .fault (.boundsViolation (s.pc.toNat + 1)) := by
  rw [step, fetch_outside h]
  rfl

/-- The inversion of a step that completes, with the instruction named. -/
theorem exec_instrAt_of_step {s t : State} (h : step s = .next t) :
    s.pc.toNat ≤ 4094 ∧ exec (instrAt s) (s.setPc (s.pc + 2#16)) = .next t :=
  step_next h

/-- The bytes of an instruction at `pc` make it the instruction there. -/
theorem instrAt_of_bytes {s : State} {w : Word} (hhi : s.mem.read s.pc.toNat = highByte w)
    (hlo : s.mem.read (s.pc.toNat + 1) = lowByte w) : instrAt s = decode w := by
  rw [instrAt, hhi, hlo, composeWord_bytes]

/-- Every step ends in one of two ways: in the fatal condition the table names, or in a state when it names none. -/
theorem step_fault_or_next (s : State) :
    (∃ f, fatalCondition s = some f ∧ step s = .fault f) ∨ (fatalCondition s = none ∧ ∃ t, step s = .next t) := by
  by_cases hpc : s.pc.toNat ≤ 4094
  · rw [step_inside hpc, fatalCondition, if_neg (by omega)]
    cases instrAt s with
    | cls | jp _ | ldVx _ _ | addVx _ _ | ldI _ | unrecognised _ => exact .inr ⟨rfl, _, rfl⟩
    | ret =>
      obtain hempty | ⟨k, hk⟩ := s.sp_empty_or_top
      · exact .inl ⟨_, if_pos hempty, exec_ret_empty hempty⟩
      · exact .inr ⟨if_neg (by omega), _, exec_ret_top hk⟩
    | call nnn =>
      obtain hfull | ⟨k, hk⟩ := s.sp_full_or_room
      · exact .inl ⟨_, if_pos hfull, exec_call_full nnn hfull⟩
      · exact .inr ⟨if_neg (by omega), _, exec_call_room nnn hk⟩
    | drw x y n =>
      by_cases hout : spriteOutside s n
      · exact .inl ⟨_, if_pos hout, exec_drw_outside x y hout⟩
      · exact .inr ⟨if_neg hout, _, exec_drw_inside x y hout⟩
  · exact .inl ⟨_, if_pos (by omega), step_outside (by omega)⟩

/-! ### The obligations -/

/-- Settles O12: the two sides of the fetch's check; a fetch is one write of `pc`. -/
theorem fetchComposesAndAdvances : Obligations.FetchComposesAndAdvances := fun s =>
  ⟨fun h => ⟨_, _, fetch_inside h, composeWord_toNat _ _, pc_advance h, unchangedBut_setPc s _⟩, fetch_outside⟩

/-- Settles O13: the bytes at `pc` decode to the instruction whose bytes they are. -/
theorem stepRunsTheDecodedInstruction : Obligations.StepRunsTheDecodedInstruction := by
  intro s i hwf hpc hhi hlo
  rw [step_inside hpc, instrAt_of_bytes hhi hlo, decode_encode hwf]

/-- Settles O14: the two outcomes a step can have, each with its side of the table. -/
theorem stepStopsExactlyOnFatalConditions : Obligations.StepStopsExactlyOnFatalConditions := by
  intro s
  obtain ⟨f, hf, hstep⟩ | ⟨hnone, t, hstep⟩ := step_fault_or_next s
  · simp [SafeStep, hf, hstep]
  · simp [SafeStep, hnone, hstep]

/-- Settles O27: only the draw's bounds check stops it. -/
theorem drwFaultsExactlyOutsideMemory : Obligations.DrwFaultsExactlyOutsideMemory := by
  intro x y n s f
  by_cases hout : spriteOutside s n
  · rw [exec_drw_outside x y hout]
    constructor
    · rintro ⟨⟩
      exact ⟨hout.1, hout.2, rfl⟩
    · rintro ⟨-, -, rfl⟩
      rfl
  · rw [exec_drw_inside x y hout]
    constructor
    · rintro ⟨⟩
    · rintro ⟨hn, htop, -⟩
      exact absurd ⟨hn, htop⟩ hout

/-- Settles O29: the execute phase of an unrecognised opcode is no write at all. -/
theorem unrecognisedOpcodeChangesNothing : Obligations.UnrecognisedOpcodeChangesNothing := fun _ _ => rfl

end Sys2Proof.Machine

/-! PROOFS. The draw in closed form (R82): a sprite is a list of cells without repetition, and drawing it toggles each
of them once. -/

namespace Sys2Proof.Machine

/-! ### Drawing a list of cells -/

/-- Draw one cell after another (R81 step 3). -/
def drawCells (cells : List (Fin 32 × Fin 64)) (s : State) : State :=
  cells.foldl (fun t p => drawPixel t p.1 p.2) s

@[simp] theorem drawCells_nil (s : State) : drawCells [] s = s := rfl

@[simp] theorem drawCells_cons (p : Fin 32 × Fin 64) (rest : List (Fin 32 × Fin 64)) (s : State) :
    drawCells (p :: rest) s = drawCells rest (drawPixel s p.1 p.2) := rfl

/-- A cell is XORed with its membership in the list, if no cell is listed twice. -/
theorem getCell_drawCells {cells : List (Fin 32 × Fin 64)} (hnd : cells.Nodup) (s : State) (r : Fin 32) (c : Fin 64) :
    (drawCells cells s).getCell r c = (s.getCell r c ^^ decide ((r, c) ∈ cells)) := by
  induction cells generalizing s with
  | nil => simp
  | cons p rest ih =>
    obtain ⟨hp, hrest⟩ := List.nodup_cons.1 hnd
    obtain ⟨-, -, hcell⟩ := drawPixel_spec s p.1 p.2
    rw [drawCells_cons, ih hrest, hcell]
    by_cases hrc : (r, c) = p
    · subst p
      simp [hp]
    · have hne : ¬ (r = p.1 ∧ c = p.2) := fun h => hrc (Prod.ext h.1 h.2)
      simp [hrc, hne]

/-- VF tells whether a listed cell was lit before the draw; a cell listed once is met as it was. -/
theorem getV_drawCells {cells : List (Fin 32 × Fin 64)} (hnd : cells.Nodup) (s : State) :
    (drawCells cells s).getV 15 = if ∃ p ∈ cells, s.getCell p.1 p.2 = true then 1#8 else s.getV 15 := by
  induction cells generalizing s with
  | nil => simp
  | cons p rest ih =>
    obtain ⟨hp, hrest⟩ := List.nodup_cons.1 hnd
    obtain ⟨-, hvf, hcell⟩ := drawPixel_spec s p.1 p.2
    have hsame : (∃ q ∈ rest, (drawPixel s p.1 p.2).getCell q.1 q.2 = true) ↔
        ∃ q ∈ rest, s.getCell q.1 q.2 = true := by
      refine exists_congr fun q => and_congr_right fun hq => ?_
      have hne : ¬ (q.1 = p.1 ∧ q.2 = p.2) := fun h => hp (Prod.ext h.1 h.2 ▸ hq)
      simp [hcell, hne]
    rw [drawCells_cons, ih hrest, hvf]
    by_cases hr : ∃ q ∈ rest, s.getCell q.1 q.2 = true
    · simp [hsame, hr]
    · by_cases hs : s.getCell p.1 p.2 = true <;> simp [hsame, hr, hs]

/-! ### The cells of a sprite -/

/-- The cells a sprite's row strikes: one for each bit of 1 (R81). -/
def rowCells (yp xp row : Nat) (s : State) : List (Fin 32 × Fin 64) :=
  ((List.range 8).filter (spriteBit (s.mem.read (rowAddr s row)))).map
    (fun col => (targetRow yp row, targetCol xp col))

/-- The cells a sprite strikes, row after row (R81). -/
def spriteCells (n yp xp : Nat) (s : State) : List (Fin 32 × Fin 64) :=
  (List.range n).flatMap (fun row => rowCells yp xp row s)

/-- A draw changes neither memory nor `I`, so it does not change the cells of a row. -/
theorem rowCells_of_same {s t : State} (h : SameButDraw s t) (yp xp row : Nat) :
    rowCells yp xp row t = rowCells yp xp row s := by
  obtain ⟨-, hi, -, -, -, -, hmem, -⟩ := h
  simp only [rowCells, rowAddr, hi, hmem]

/-- Drawing a row is drawing its cells. -/
theorem drawRow_eq (yp xp row : Nat) (s : State) : drawRow yp xp row s = drawCells (rowCells yp xp row s) s := by
  simp only [drawRow, drawCells, rowCells, List.foldl_map, List.foldl_filter]

/-- Drawing rows is drawing their cells, whatever draw came before. -/
theorem foldl_drawRow_eq (yp xp : Nat) (rows : List Nat) {s t : State} (h : SameButDraw s t) :
    rows.foldl (fun u row => drawRow yp xp row u) t =
      drawCells (rows.flatMap (fun row => rowCells yp xp row s)) t := by
  induction rows generalizing t with
  | nil => rfl
  | cons row rest ih =>
    rw [List.foldl_cons, ih (h.trans (drawRow_same ..)), drawRow_eq, rowCells_of_same h, List.flatMap_cons]
    exact List.foldl_append.symm

/-- Drawing a sprite is drawing its cells. -/
theorem drawRows_eq (n yp xp : Nat) (s : State) : drawRows n yp xp s = drawCells (spriteCells n yp xp s) s :=
  foldl_drawRow_eq yp xp (List.range n) (.refl s)

/-! ### A sprite fits on the screen, so no cell is struck twice (R82) -/

/-- At most 32 rows land on different rows of the screen. -/
theorem targetRow_injective {yp i j : Nat} (hi : i < 32) (hj : j < 32) (h : targetRow yp i = targetRow yp j) :
    i = j := by
  have hv : (yp + i) % 32 = (yp + j) % 32 := congrArg Fin.val h
  omega

/-- At most 64 columns land on different columns of the screen. -/
theorem targetCol_injective {xp i j : Nat} (hi : i < 64) (hj : j < 64) (h : targetCol xp i = targetCol xp j) :
    i = j := by
  have hv : (xp + i) % 64 = (xp + j) % 64 := congrArg Fin.val h
  omega

theorem nodup_rowCells (yp xp row : Nat) (s : State) : (rowCells yp xp row s).Nodup := by
  refine List.Nodup.map_on (fun i hi j hj h => ?_) (List.nodup_range.filter _)
  have hi8 := List.mem_range.1 (List.mem_filter.1 hi).1
  have hj8 := List.mem_range.1 (List.mem_filter.1 hj).1
  exact targetCol_injective (by omega) (by omega) (congrArg Prod.snd h)

theorem nodup_spriteCells {n : Nat} (hn : n < 32) (yp xp : Nat) (s : State) : (spriteCells n yp xp s).Nodup := by
  refine List.nodup_flatMap.2 ⟨fun row _ => nodup_rowCells yp xp row s, ?_⟩
  refine List.nodup_range.imp_of_mem fun {i j} hi hj hne => ?_
  rintro p hpi hpj
  obtain ⟨ci, -, rfl⟩ := List.mem_map.1 hpi
  obtain ⟨cj, -, hp⟩ := List.mem_map.1 hpj
  have hi' := List.mem_range.1 hi
  have hj' := List.mem_range.1 hj
  exact hne (targetRow_injective (by omega) (by omega) (congrArg Prod.fst hp).symm)

/-- The sprite's cells are the mask of R82. -/
theorem mem_spriteCells (s : State) (x y : RegIdx) (n : Fin 16) (r : Fin 32) (c : Fin 64) :
    (r, c) ∈ spriteCells n.val (originRow s y) (originCol s x) s ↔ InSprite s x y n r c := by
  have hr (row : Nat) : targetRow (originRow s y) row = r ↔ r.val = ((s.getV y).toNat % 32 + row) % 32 :=
    Fin.ext_iff.trans eq_comm
  have hc (col : Nat) : targetCol (originCol s x) col = c ↔ c.val = ((s.getV x).toNat % 64 + col) % 64 :=
    Fin.ext_iff.trans eq_comm
  simp only [spriteCells, rowCells, List.mem_flatMap, List.mem_map, List.mem_filter, List.mem_range, Prod.mk.injEq,
    hr, hc, spriteBit, rowAddr, InSprite, and_assoc]

/-! ### The closed form of a draw that completes -/

/-- Clearing VF first does not move the sprite: the origin is read before. -/
theorem spriteCells_clearCollision (n yp xp : Nat) (s : State) :
    spriteCells n yp xp (clearCollision s) = spriteCells n yp xp s := rfl

/-- What DRW leaves is the state with VF cleared and the mask's cells drawn. -/
theorem exec_drw_next {x y : RegIdx} {n : Fin 16} {s t : State} (h : exec (.drw x y n) s = .next t) :
    t = drawCells (spriteCells n.val (originRow s y) (originCol s x) s) (clearCollision s) := by
  rw [exec_drw_inside x y (not_spriteOutside_of_exec_drw h), drawRows_eq, spriteCells_clearCollision] at h
  cases h
  rfl

/-- Every cell is XORed with the mask (R82). -/
theorem getCell_of_exec_drw {x y : RegIdx} {n : Fin 16} {s t : State} (h : exec (.drw x y n) s = .next t)
    (r : Fin 32) (c : Fin 64) : t.getCell r c = (s.getCell r c ^^ decide (InSprite s x y n r c)) := by
  rw [exec_drw_next h, getCell_drawCells (nodup_spriteCells (by omega) _ _ _)]
  simp only [mem_spriteCells, clearCollision, State.getCell_setV]

/-- VF is the collision (R82). -/
theorem getV_of_exec_drw {x y : RegIdx} {n : Fin 16} {s t : State} (h : exec (.drw x y n) s = .next t) :
    t.getV 15 = if ∃ r c, InSprite s x y n r c ∧ s.getCell r c = true then 1#8 else 0#8 := by
  rw [exec_drw_next h, getV_drawCells (nodup_spriteCells (by omega) _ _ _)]
  simp only [Prod.exists, mem_spriteCells, clearCollision, State.getCell_setV, State.getV_setV_same]

/-- A draw leaves 0 or 1 in VF (R12). -/
theorem getV_of_exec_drw_zero_or_one {x y : RegIdx} {n : Fin 16} {s t : State} (h : exec (.drw x y n) s = .next t) :
    t.getV 15 = 0#8 ∨ t.getV 15 = 1#8 := by
  rw [getV_of_exec_drw h]
  split
  · exact .inr rfl
  · exact .inl rfl

/-- The frame of a draw, over the whole inspection list (R107). -/
theorem SameButDraw.unchangedBut {s t : State} (h : SameButDraw s t) :
    UnchangedBut (fun e => e = .v 15 ∨ ∃ r c, e = .fb r c) s t := by
  obtain ⟨hpc, hi, hstack, hsp, hdt, hst, hmem, hv⟩ := h
  intro e he
  cases e with
  | v q => exact congrArg BitVec.toNat (hv q fun hq => he (.inl (congrArg Element.v hq)))
  | fb r c => exact absurd (.inr ⟨r, c, rfl⟩) he
  | pc | i | sp | dt | st => simp only [inspect, *]
  | stack k => simp only [inspect, State.getSlot, hstack]
  | mem a => simp only [inspect, hmem]

/-- The mask depends on memory, `I` and the two coordinates alone. -/
theorem inSprite_congr {s t : State} {x y : RegIdx} (hi : t.i = s.i) (hmem : t.mem = s.mem)
    (hx : t.getV x = s.getV x) (hy : t.getV y = s.getV y) (n : Fin 16) (r : Fin 32) (c : Fin 64) :
    InSprite t x y n r c ↔ InSprite s x y n r c := by
  simp only [InSprite, hi, hmem, hx, hy]

/-! ### The obligations -/

/-- Settles O26: the sprite's bounds hold, so the draw completes with the closed form. -/
theorem drwXorsTheSpriteMask : Obligations.DrwXorsTheSpriteMask := by
  intro x y n s hin
  have hdone := exec_drw_inside x y (s := s) (n := n) fun hout => by
    obtain ⟨hn, htop⟩ := hout
    omega
  exact ⟨_, hdone, getCell_of_exec_drw hdone, getV_of_exec_drw hdone, (sameButDraw_of_exec_drw hdone).unchangedBut⟩

/-- Settles O28: the second draw has the first one's mask, and XOR with it twice changes nothing; a mask that was unlit
before the first draw is lit before the second. -/
theorem drwTwiceRestoresTheDisplay : Obligations.DrwTwiceRestoresTheDisplay := by
  intro x y n s t hfirst hx hy
  obtain ⟨-, hi, -, -, -, -, hmem, -⟩ := sameButDraw_of_exec_drw hfirst
  have hmask := inSprite_congr hi hmem hx hy n
  have hin : ¬ spriteOutside t n := by
    rw [spriteOutside, hi]
    exact not_spriteOutside_of_exec_drw hfirst
  have hsecond := exec_drw_inside x y hin
  refine ⟨_, hsecond, fun r c => ?_, fun ⟨r, c, hrc⟩ hunlit => ?_⟩
  · rw [getCell_of_exec_drw hsecond, getCell_of_exec_drw hfirst, decide_eq_decide.2 (hmask r c), Bool.xor_assoc,
      Bool.xor_self, Bool.xor_false]
  · have hlit : t.getCell r c = true := by
      rw [getCell_of_exec_drw hfirst, hunlit r c hrc, decide_eq_true hrc]
      rfl
    rw [getV_of_exec_drw hsecond, if_pos ⟨r, c, (hmask r c).2 hrc, hlit⟩]

end Sys2Proof.Machine

/-! PROOFS. Frames: what every instruction and every step leave unchanged, and the control-flow rules that rest on it
(R11 to R14, R71 to R73). -/

namespace Sys2Proof.Machine

/-! ### Frames put together -/

theorem UnchangedBut.mono {a b : Element → Prop} {s t : State} (h : UnchangedBut a s t) (hab : ∀ e, a e → b e) :
    UnchangedBut b s t := fun e he => h e fun ha => he (hab e ha)

theorem UnchangedBut.trans {a : Element → Prop} {s t u : State} (h : UnchangedBut a s t) (k : UnchangedBut a t u) :
    UnchangedBut a s u := fun e he => (k e he).trans (h e he)

theorem UnchangedBut.refl (a : Element → Prop) (s : State) : UnchangedBut a s s := fun _ _ => rfl

/-- The frame of the `sp` write. -/
theorem unchangedBut_setSp (s : State) (n : Fin 17) : UnchangedBut (fun e => e = .sp) s (s.setSp n) := by
  intro e he
  cases e with
  | sp => exact absurd rfl he
  | _ => rfl

/-- The frame of a slot write: every other slot keeps its value. -/
theorem unchangedBut_setSlot (s : State) (k : Fin 16) (a : Word) :
    UnchangedBut (fun e => e = .stack k) s (s.setSlot k a) := by
  intro e he
  cases e with
  | stack j =>
    have hj : j ≠ k := fun h => he (congrArg Element.stack h)
    simp only [inspect, State.getSlot_setSlot, if_neg hj]
  | _ => rfl

/-- The frame of a push and a jump: CALL's three writes (R71). -/
theorem unchangedBut_call (s : State) (k : Fin 16) (ret target : Word) (n : Fin 17) :
    UnchangedBut (fun e => e = .pc ∨ e = .sp ∨ e = .stack k) s (((s.setSlot k ret).setSp n).setPc target) :=
  ((unchangedBut_setSlot s k ret).mono fun _ h => .inr (.inr h)).trans <|
    ((unchangedBut_setSp _ n).mono fun _ h => .inr (.inl h)).trans <|
      (unchangedBut_setPc _ target).mono fun _ h => .inl h

/-- The frame of a pop and a jump: RET's two writes (R72). -/
theorem unchangedBut_ret (s : State) (target : Word) (n : Fin 17) :
    UnchangedBut (fun e => e = .pc ∨ e = .sp) s ((s.setSp n).setPc target) :=
  ((unchangedBut_setSp s n).mono fun _ h => .inr h).trans <| (unchangedBut_setPc _ target).mono fun _ h => .inl h

/-! ### Reading an unchanged element -/

theorem UnchangedBut.getV_eq {a : Element → Prop} {s t : State} (h : UnchangedBut a s t) {q : RegIdx}
    (hq : ¬ a (.v q)) : t.getV q = s.getV q := BitVec.eq_of_toNat_eq (h _ hq)

theorem UnchangedBut.getSlot_eq {a : Element → Prop} {s t : State} (h : UnchangedBut a s t) {k : Fin 16}
    (hk : ¬ a (.stack k)) : t.getSlot k = s.getSlot k := BitVec.eq_of_toNat_eq (h _ hk)

theorem UnchangedBut.pc_eq {a : Element → Prop} {s t : State} (h : UnchangedBut a s t) (hpc : ¬ a .pc) :
    t.pc = s.pc := BitVec.eq_of_toNat_eq (h _ hpc)

/-- A cell is lit or unlit as the number read says (R107). -/
theorem eq_of_cell_toNat_eq : ∀ b c : Bool, b.toNat = c.toNat → b = c := by decide

/-! ### Every instruction -/

/-- The frame of a draw is its mask and VF (R84). -/
theorem unchangedBut_of_exec_drw {x y : RegIdx} {n : Fin 16} {s t : State} (h : exec (.drw x y n) s = .next t) :
    UnchangedBut (mayWrite (.drw x y n) s) s t := by
  intro e he
  by_cases hfb : ∃ r c, e = .fb r c
  · obtain ⟨r, c, rfl⟩ := hfb
    have hout : ¬ InSprite s x y n r c := fun hin => he (.inr ⟨r, c, hin, rfl⟩)
    rw [inspect, getCell_of_exec_drw h, decide_eq_false hout, Bool.xor_false]
    rfl
  · exact (sameButDraw_of_exec_drw h).unchangedBut e (not_or.2 ⟨fun hv => he (.inl hv), hfb⟩)

/-- Every instruction keeps memory and writes only what its rule names. -/
theorem exec_frame {i : Instr} {s t : State} (h : exec i s = .next t) :
    UnchangedBut (mayWrite i s) s t ∧ t.mem = s.mem := by
  cases i with
  | cls => cases h; exact ⟨unchangedBut_setFb s _, rfl⟩
  | jp nnn => cases h; exact ⟨unchangedBut_setPc s _, rfl⟩
  | ldVx x nn => cases h; exact ⟨unchangedBut_setV s x nn, rfl⟩
  | addVx x nn => cases h; exact ⟨unchangedBut_setV s x _, rfl⟩
  | ldI nnn => cases h; exact ⟨unchangedBut_setI s _, rfl⟩
  | unrecognised w => cases h; exact ⟨.refl _ s, rfl⟩
  | ret =>
    obtain ⟨k, -, rfl⟩ := exec_ret_next h
    exact ⟨unchangedBut_ret s _ _, rfl⟩
  | call nnn =>
    obtain ⟨k, hk, rfl⟩ := exec_call_next h
    exact ⟨(unchangedBut_call s k _ _ _).mono fun e he => he.imp_right (.imp_right fun hs => ⟨k, hk.symm, hs⟩), rfl⟩
  | drw x y n =>
    obtain ⟨-, -, -, -, -, -, hmem, -⟩ := sameButDraw_of_exec_drw h
    exact ⟨unchangedBut_of_exec_drw h, hmem⟩

/-- No instruction writes a slot below `sp`: CALL's slot is `sp` itself (R18). -/
theorem not_mayWrite_slot_below (i : Instr) {s : State} {k : Fin 16} (hk : k.val < s.sp.val) :
    ¬ mayWrite i s (.stack k) := by
  cases i with
  | call nnn =>
    rintro (h | h | ⟨j, hj, ⟨⟩⟩)
    · cases h
    · cases h
    · omega
  | _ => simp [mayWrite]

/-- A step keeps every pushed entry. -/
theorem getSlot_of_step {s t : State} (h : step s = .next t) {k : Fin 16} (hk : k.val < s.sp.val) :
    t.getSlot k = s.getSlot k := by
  obtain ⟨-, he⟩ := exec_instrAt_of_step h
  exact (exec_frame he).1.getSlot_eq (not_mayWrite_slot_below _ hk)

/-- Steps that never drop below a depth end no lower than it. -/
theorem StepsAbove.le_sp {d : Nat} {s t : State} (h : StepsAbove d s t) : d ≤ t.sp.val := by
  cases h with
  | refl hd => exact hd
  | tail _ _ hd => exact hd

/-- Steps that never drop below a depth keep every entry below it (R73). -/
theorem StepsAbove.getSlot_eq {d : Nat} {s t : State} (h : StepsAbove d s t) {k : Fin 16} (hk : k.val < d) :
    t.getSlot k = s.getSlot k := by
  induction h with
  | refl _ => rfl
  | tail hsteps hstep _ ih => exact (getSlot_of_step hstep (Nat.lt_of_lt_of_le hk hsteps.le_sp)).trans ih

/-! ### The obligations on every instruction -/

/-- Settles O31: the frame of each instruction. -/
theorem instructionsWriteOnlyTheirElements : Obligations.InstructionsWriteOnlyTheirElements := fun _ _ _ => exec_frame

/-- Settles O32: DRW by its closed form, every other instruction by its frame. -/
theorem vfRolesNeverMix : Obligations.VfRolesNeverMix := by
  intro i s t h
  have hframe := (exec_frame h).1
  cases i with
  | drw x y n => exact getV_of_exec_drw_zero_or_one h
  | ldVx x nn | addVx x nn => exact fun hx => hframe.getV_eq fun hv => hx (Element.v.inj hv).symm
  | cls | ret | jp _ | call _ | ldI _ | unrecognised _ => exact hframe.getV_eq (by simp [mayWrite])

/-! ### The obligations on control flow -/

/-- Settles O16: the three writes of a CALL with room. -/
theorem callPushesAdvancedPc : Obligations.CallPushesAdvancedPc := by
  intro nnn s k hk
  refine ⟨_, exec_call_room nnn hk, addrOperand_toNat nnn, ?_, ?_, unchangedBut_call s k _ _ _⟩
  · rw [State.setPc_sp, State.setSp_sp, Fin.val_succ, hk]
  · simp [State.getSlot_setSlot]

/-- Settles O17: a full stack leaves no room. -/
theorem callOverflowsAtSixteen : Obligations.CallOverflowsAtSixteen := fun nnn _ => exec_call_full nnn

/-- Settles O18: the two writes of a RET with an entry. -/
theorem retPopsIntoPc : Obligations.RetPopsIntoPc := by
  intro s k hk
  refine ⟨_, exec_ret_top hk, rfl, ?_, unchangedBut_ret s _ _⟩
  rw [State.setPc_sp, State.setSp_sp, Fin.val_castSucc, hk]

/-- Settles O19: an empty stack has no entry. -/
theorem retUnderflowsAtZero : Obligations.RetUnderflowsAtZero := fun _ => exec_ret_empty

/-- Settles O20: the CALL puts `B + 2` into the slot at its depth, the steps keep that slot, and the RET pops it. -/
theorem callReturnRoundTrip : Obligations.CallReturnRoundTrip := by
  intro s t u nnn hcall hstep hsteps hsp hpc hret
  obtain ⟨hspc, he⟩ := exec_instrAt_of_step hstep
  rw [hcall] at he
  obtain ⟨k, hk, rfl⟩ := exec_call_next he
  rw [State.setPc_sp] at hk
  have hslot : u.getSlot k = s.pc + 2#16 := by
    rw [hsteps.getSlot_eq (by omega)]
    simp [State.getSlot_setSlot]
  refine ⟨((u.setPc (u.pc + 2#16)).setSp k.castSucc).setPc (u.getSlot k), ?_, ?_, Fin.ext hk.symm⟩
  · rw [step_inside hpc, hret]
    exact exec_ret_top (s := u.setPc (u.pc + 2#16)) (hsp.trans (congrArg (· + 1) hk))
  · rw [State.setPc_pc, hslot]
    exact pc_advance hspc

/-- Settles O21: the jump writes back the address the fetch advanced from. -/
theorem jumpToSelfChangesNothing : Obligations.JumpToSelfChangesNothing := by
  intro s nnn hpc hinstr hself
  have htarget : addrOperand nnn = s.pc := BitVec.eq_of_toNat_eq ((addrOperand_toNat nnn).trans hself)
  rw [step_inside hpc, hinstr, exec_jp, htarget]
  rfl

end Sys2Proof.Machine

/-! PROOFS. What a step cannot observe: the timers (R101) and the stack slots at or above `sp` (R18). -/

namespace Sys2Proof.Machine

/-! ### The timers -/

/-- The state with other timers. -/
def State.setTimers (d e : Byte) (s : State) : State := (s.setDt d).setSt e

/-- The same outcome, in a state changed by `f` where there is one. -/
def mapNext (f : State → State) : Result → Result
  | .next t => .next (f t)
  | .fault r => .fault r
  | .refused r => .refused r

/-- A draw of one cell does not see the timers. -/
theorem drawPixel_setTimers (d e : Byte) (s : State) (r : Fin 32) (c : Fin 64) :
    drawPixel (s.setTimers d e) r c = (drawPixel s r c).setTimers d e := by
  have hnote : noteCollision (s.setTimers d e) r c = (noteCollision s r c).setTimers d e :=
    (apply_ite (State.setTimers d e) (s.getCell r c = true) (s.setV 15 1#8) s).symm
  rw [drawPixel, hnote]
  rfl

/-- The draw of a sprite does not see the timers. -/
theorem drawRows_setTimers (d e : Byte) (n yp xp : Nat) (s : State) :
    drawRows n yp xp (s.setTimers d e) = (drawRows n yp xp s).setTimers d e := by
  rw [drawRows_eq, drawRows_eq]
  exact List.foldl_hom (State.setTimers d e) fun t p => drawPixel_setTimers d e t p.1 p.2

/-- No execute phase sees the timers. -/
theorem exec_setTimers (d e : Byte) (i : Instr) (s : State) :
    exec i (s.setTimers d e) = mapNext (State.setTimers d e) (exec i s) := by
  cases i with
  | cls | jp _ | ldVx _ _ | addVx _ _ | ldI _ | unrecognised _ => rfl
  | ret =>
    obtain hempty | ⟨k, hk⟩ := s.sp_empty_or_top
    · rw [exec_ret_empty hempty]
      exact exec_ret_empty hempty
    · rw [exec_ret_top hk]
      exact exec_ret_top hk
  | call nnn =>
    obtain hfull | ⟨k, hk⟩ := s.sp_full_or_room
    · rw [exec_call_full nnn hfull]
      exact exec_call_full nnn hfull
    · rw [exec_call_room nnn hk]
      exact exec_call_room nnn hk
  | drw x y n =>
    by_cases hout : spriteOutside s n
    · rw [exec_drw_outside x y hout]
      exact exec_drw_outside x y hout
    · rw [exec_drw_inside x y hout]
      refine (exec_drw_inside (s := s.setTimers d e) x y hout).trans (congrArg Host.Outcome.next ?_)
      exact drawRows_setTimers d e n.val _ _ (clearCollision s)

/-- No step sees the timers. -/
theorem step_setTimers (d e : Byte) (s : State) :
    step (s.setTimers d e) = mapNext (State.setTimers d e) (step s) := by
  by_cases hpc : s.pc.toNat ≤ 4094
  · rw [step_inside hpc]
    exact (step_inside (s := s.setTimers d e) hpc).trans (exec_setTimers d e (instrAt s) (s.setPc (s.pc + 2#16)))
  · have hout : 4095 ≤ s.pc.toNat := by omega
    rw [step_outside hout]
    exact step_outside (s := s.setTimers d e) hout

/-! ### The slots at or above `sp` -/

/-- What two states a program cannot tell apart agree on, element by element. -/
structure AgreeBelowSp (s s' : State) : Prop where
  v : ∀ q, s'.getV q = s.getV q
  pc : s'.pc = s.pc
  i : s'.i = s.i
  sp : s'.sp = s.sp
  dt : s'.dt = s.dt
  st : s'.st = s.st
  mem : ∀ a < 4096, s'.mem.read a = s.mem.read a
  cell : ∀ r c, s'.getCell r c = s.getCell r c
  slot : ∀ k : Fin 16, k.val < s.sp.val → s'.getSlot k = s.getSlot k

theorem sameToPrograms_iff (s s' : State) : SameToPrograms s s' ↔ AgreeBelowSp s s' := by
  constructor
  · intro h
    have fixed {e : Element} (he : ∀ k, e ≠ .stack k) : inspect e s' = inspect e s := by
      refine h e ?_
      rintro ⟨k, -, rfl⟩
      exact he k rfl
    exact {
      v := fun q => BitVec.eq_of_toNat_eq (fixed (e := .v q) nofun)
      pc := BitVec.eq_of_toNat_eq (fixed (e := .pc) nofun)
      i := BitVec.eq_of_toNat_eq (fixed (e := .i) nofun)
      sp := Fin.ext (fixed (e := .sp) nofun)
      dt := BitVec.eq_of_toNat_eq (fixed (e := .dt) nofun)
      st := BitVec.eq_of_toNat_eq (fixed (e := .st) nofun)
      mem := fun a ha => BitVec.eq_of_toNat_eq (fixed (e := .mem ⟨a, ha⟩) nofun)
      cell := fun r c => eq_of_cell_toNat_eq _ _ (fixed (e := .fb r c) nofun)
      slot := fun k hk => by
        refine UnchangedBut.getSlot_eq h ?_
        rintro ⟨j, hj, ⟨⟩⟩
        omega }
  · intro h e he
    cases e with
    | v q => exact congrArg BitVec.toNat (h.v q)
    | pc => exact congrArg BitVec.toNat h.pc
    | i => exact congrArg BitVec.toNat h.i
    | sp => exact congrArg Fin.val h.sp
    | dt => exact congrArg BitVec.toNat h.dt
    | st => exact congrArg BitVec.toNat h.st
    | mem a => exact congrArg BitVec.toNat (h.mem a a.isLt)
    | fb r c => exact congrArg Bool.toNat (h.cell r c)
    | stack k =>
      have hk : k.val < s.sp.val := by
        by_contra hge
        exact he ⟨k, by omega, rfl⟩
      exact congrArg BitVec.toNat (h.slot k hk)

/-! ### Each write keeps the agreement -/

namespace AgreeBelowSp

variable {s s' : State}

theorem setPc (h : AgreeBelowSp s s') (a : Word) : AgreeBelowSp (s.setPc a) (s'.setPc a) := { h with pc := rfl }

theorem setI (h : AgreeBelowSp s s') (a : Word) : AgreeBelowSp (s.setI a) (s'.setI a) := { h with i := rfl }

theorem setFb (h : AgreeBelowSp s s') (f : Framebuffer) : AgreeBelowSp (s.setFb f) (s'.setFb f) :=
  { h with cell := fun _ _ => rfl }

theorem setV (h : AgreeBelowSp s s') (x : RegIdx) (b : Byte) : AgreeBelowSp (s.setV x b) (s'.setV x b) :=
  { h with v := fun q => by rw [State.getV_setV, State.getV_setV, h.v q] }

/-- A pop uncovers nothing: the entries below the new `sp` were below the old one. -/
theorem setSp (h : AgreeBelowSp s s') {n : Fin 17} (hn : n.val ≤ s.sp.val) : AgreeBelowSp (s.setSp n) (s'.setSp n) :=
  { h with
    sp := rfl
    slot := fun k hk => h.slot k (Nat.lt_of_lt_of_le hk hn) }

/-- A push writes the one slot it uncovers. -/
theorem push (h : AgreeBelowSp s s') {k : Fin 16} (hk : s.sp.val = k.val) (a : Word) :
    AgreeBelowSp ((s.setSlot k a).setSp k.succ) ((s'.setSlot k a).setSp k.succ) :=
  { h with
    sp := rfl
    slot := fun j hj => by
      rw [State.getSlot_setSp, State.getSlot_setSp, State.getSlot_setSlot, State.getSlot_setSlot]
      by_cases hjk : j = k
      · rw [if_pos hjk, if_pos hjk]
      · have hjk' : j.val ≠ k.val := Fin.val_ne_of_ne hjk
        rw [State.setSp_sp, Fin.val_succ] at hj
        rw [if_neg hjk, if_neg hjk]
        exact h.slot j (by omega) }

theorem spriteOutside_iff (h : AgreeBelowSp s s') (n : Fin 16) : spriteOutside s' n ↔ spriteOutside s n := by
  rw [spriteOutside, spriteOutside, h.i]

/-- A sprite inside memory has the same mask in both states. -/
theorem inSprite_iff (h : AgreeBelowSp s s') {n : Fin 16} (hin : ¬ spriteOutside s n) (x y : RegIdx) (r : Fin 32)
    (c : Fin 64) : InSprite s' x y n r c ↔ InSprite s x y n r c := by
  refine exists_congr fun row => and_congr_right fun hrow => ?_
  have hread : s'.mem.read (s'.i.toNat + row) = s.mem.read (s.i.toNat + row) := by
    rw [h.i]
    exact h.mem _ (by omega)
  rw [hread, h.v x, h.v y]

/-- Draws that complete keep the agreement, by their closed form. -/
theorem draw (h : AgreeBelowSp s s') {x y : RegIdx} {n : Fin 16} {t t' : State} (ht : exec (.drw x y n) s = .next t)
    (ht' : exec (.drw x y n) s' = .next t') : AgreeBelowSp t t' := by
  have hmask := h.inSprite_iff (not_spriteOutside_of_exec_drw ht) x y
  obtain ⟨hpc, hi, hstack, hsp, hdt, hst, hmem, hv⟩ := sameButDraw_of_exec_drw ht
  obtain ⟨hpc', hi', hstack', hsp', hdt', hst', hmem', hv'⟩ := sameButDraw_of_exec_drw ht'
  exact {
    v := fun q => by
      by_cases hq : q = 15
      · subst q
        rw [getV_of_exec_drw ht, getV_of_exec_drw ht']
        simp only [hmask, h.cell]
      · rw [hv q hq, hv' q hq, h.v q]
    pc := by rw [hpc, hpc', h.pc]
    i := by rw [hi, hi', h.i]
    sp := by rw [hsp, hsp', h.sp]
    dt := by rw [hdt, hdt', h.dt]
    st := by rw [hst, hst', h.st]
    mem := fun a ha => by rw [hmem, hmem', h.mem a ha]
    cell := fun r c => by
      rw [getCell_of_exec_drw ht, getCell_of_exec_drw ht', h.cell, decide_eq_decide.2 (hmask r c)]
    slot := fun k hk => by
      rw [State.getSlot, State.getSlot, hstack, hstack']
      exact h.slot k (hsp ▸ hk) }

end AgreeBelowSp

/-! ### The simulation -/

/-- Two outcomes a program cannot tell apart: the same fault, or states that agree. -/
inductive SameOutcome : Result → Result → Prop where
  | next {t t' : State} : AgreeBelowSp t t' → SameOutcome (.next t) (.next t')
  | fault (f : Fault) : SameOutcome (.fault f) (.fault f)

theorem SameOutcome.eq_fault {r : Result} {f : Fault} (h : SameOutcome (.fault f) r) : r = .fault f := by
  cases h
  rfl

theorem SameOutcome.eq_next {r : Result} {t : State} (h : SameOutcome (.next t) r) :
    ∃ t', r = .next t' ∧ AgreeBelowSp t t' := by
  cases h with
  | next hagree => exact ⟨_, rfl, hagree⟩

/-- Every execute phase ends alike from states that agree. -/
theorem exec_sameOutcome {s s' : State} (h : AgreeBelowSp s s') (i : Instr) : SameOutcome (exec i s) (exec i s') := by
  cases i with
  | cls => exact .next (h.setFb _)
  | jp nnn => exact .next (h.setPc _)
  | ldVx x nn => exact .next (h.setV x nn)
  | ldI nnn => exact .next (h.setI _)
  | unrecognised w => exact .next h
  | addVx x nn =>
    rw [exec_addVx, exec_addVx, h.v x]
    exact .next (h.setV x _)
  | ret =>
    obtain hempty | ⟨k, hk⟩ := s.sp_empty_or_top
    · rw [exec_ret_empty hempty, exec_ret_empty (h.sp ▸ hempty)]
      exact .fault _
    · rw [exec_ret_top hk, exec_ret_top (h.sp ▸ hk), h.slot k (by omega)]
      exact .next ((h.setSp (by rw [Fin.val_castSucc]; omega)).setPc _)
  | call nnn =>
    obtain hfull | ⟨k, hk⟩ := s.sp_full_or_room
    · rw [exec_call_full nnn hfull, exec_call_full nnn (h.sp ▸ hfull)]
      exact .fault _
    · rw [exec_call_room nnn hk, exec_call_room nnn (h.sp ▸ hk), h.pc]
      exact .next ((h.push hk s.pc).setPc _)
  | drw x y n =>
    by_cases hout : spriteOutside s n
    · rw [exec_drw_outside x y hout, exec_drw_outside x y ((h.spriteOutside_iff n).2 hout), h.i]
      exact .fault _
    · have ht := exec_drw_inside x y hout
      have ht' := exec_drw_inside x y (mt (h.spriteOutside_iff n).1 hout)
      rw [ht, ht']
      exact .next (h.draw ht ht')

/-- States that agree have the same instruction at `pc`, if its two bytes exist. -/
theorem AgreeBelowSp.instrAt_eq {s s' : State} (h : AgreeBelowSp s s') (hpc : s.pc.toNat ≤ 4094) :
    instrAt s' = instrAt s := by
  rw [instrAt, instrAt, h.pc, h.mem _ (by omega), h.mem _ (by omega)]

/-- Every step ends alike from states that agree. -/
theorem step_sameOutcome {s s' : State} (h : AgreeBelowSp s s') : SameOutcome (step s) (step s') := by
  by_cases hpc : s.pc.toNat ≤ 4094
  · rw [step_inside hpc, step_inside (h.pc ▸ hpc), h.instrAt_eq hpc, h.pc]
    exact exec_sameOutcome (h.setPc _) _
  · rw [step_outside (by omega), step_outside (s := s') (by rw [h.pc]; omega), h.pc]
    exact .fault _

/-! ### The obligations -/

/-- Settles O34: a step commutes with a change of the timers. -/
theorem timersDoNotInfluenceSteps : Obligations.TimersDoNotInfluenceSteps := by
  intro s d e
  have h : step ((s.setDt d).setSt e) = mapNext (State.setTimers d e) (step s) := step_setTimers d e s
  rw [h]
  cases step s <;> rfl

/-- Settles O35: the simulation of a step, with the agreement said element by element. -/
theorem slotsAboveSpAreUnobservable : Obligations.SlotsAboveSpAreUnobservable := by
  intro s s' hsame
  have hout := step_sameOutcome ((sameToPrograms_iff s s').1 hsame)
  constructor
  · intro f hf
    rw [hf] at hout
    exact hout.eq_fault
  · intro t ht
    rw [ht] at hout
    obtain ⟨t', ht', hagree⟩ := hout.eq_next
    exact ⟨t', ht', (sameToPrograms_iff t t').2 hagree⟩

end Sys2Proof.Machine

/-! PROOFS. The host's operations TICK and LOAD (R60, R62, R94, R113, R116). -/

namespace Sys2Proof.Machine

/-! ### TICK, by what the step does -/

/-- A tick whose step completes: the step's state, and the report of the instruction at `pc` (R60). -/
theorem tick_of_next (diagEnable : Bool) {s t : State} (h : step s = .next t) :
    tick diagEnable s = (t, report diagEnable (instrAt s) s.pc) := by
  obtain ⟨hpc, he⟩ := step_next h
  simp only [tick, fetch_inside hpc, he]
  rfl

/-- A tick whose step faults: the state before it (R62). -/
theorem tick_of_fault (diagEnable : Bool) {s : State} {f : Fault} (h : step s = .fault f) :
    tick diagEnable s = (s, .fatal f) := by
  by_cases hpc : s.pc.toNat ≤ 4094
  · have he : exec (decode (composeWord (s.mem.read s.pc.toNat) (s.mem.read (s.pc.toNat + 1))))
        (s.setPc (s.pc + 2#16)) = .fault f := (step_inside hpc).symm.trans h
    simp only [tick, fetch_inside hpc, he, abort]
  · rw [step_outside (by omega)] at h
    cases h
    rw [tick, fetch_outside (by omega)]
    rfl

/-- Everything a tick can do: it keeps the state and reports the step's fault, or answers the step's state. -/
theorem tick_cases (diagEnable : Bool) (s : State) :
    (∃ f, fatalCondition s = some f ∧ tick diagEnable s = (s, .fatal f)) ∨
    (fatalCondition s = none ∧
      ∃ t, step s = .next t ∧ tick diagEnable s = (t, report diagEnable (instrAt s) s.pc)) := by
  obtain ⟨f, hf, hstep⟩ | ⟨hnone, t, hstep⟩ := step_fault_or_next s
  · exact .inl ⟨f, hf, tick_of_fault diagEnable hstep⟩
  · exact .inr ⟨hnone, t, hstep, tick_of_next diagEnable hstep⟩

/-- The report of a completed tick is no fatal outcome. -/
theorem report_ne_fatal (diagEnable : Bool) (i : Instr) (a : Word) (f : Fault) :
    report diagEnable i a ≠ .fatal f := by
  cases i with
  | unrecognised w => cases diagEnable <;> exact nofun
  | _ => exact nofun

/-- A fatal tick leaves the state as it was (R62). -/
theorem tick_state_of_fatal {diagEnable : Bool} {s : State} {f : Fault} (h : (tick diagEnable s).2 = .fatal f) :
    (tick diagEnable s).1 = s := by
  obtain ⟨g, -, htick⟩ | ⟨-, t, -, htick⟩ := tick_cases diagEnable s
  · rw [htick]
  · rw [htick] at h
    exact absurd h (report_ne_fatal _ _ _ f)

/-! ### LOAD, by its fit test -/

/-- A load that does not fit (R113, R91). -/
theorem load_outside {origin : Nat} {buf : List Byte} (s : State) (h : 4096 < origin + buf.length) :
    load origin buf s = (s, .fatal (.boundsViolation (origin + buf.length - 1))) := by
  rw [load, if_pos h]
  rfl

/-- A load that fits writes memory alone, the buffer's bytes at their addresses (R113). -/
theorem load_inside {origin : Nat} {buf : List Byte} {s : State} (hm : s.mem.wf) (h : origin + buf.length ≤ 4096) :
    ∃ m : Memory, load origin buf s = (s.setMem m, .ok) ∧ m.wf ∧
      (∀ (k : Nat) (hk : k < buf.length), m.read (origin + k) = buf[k]) ∧
      (∀ a, a < origin ∨ origin + buf.length ≤ a → m.read a = s.mem.read a) := by
  obtain ⟨m, hw, hwf, hread⟩ := writeBuffer_ok hm origin buf h
  refine ⟨m, ?_, hwf, fun k hk => ?_, fun a ha => ?_⟩
  · simp only [load, hw, if_neg (Nat.not_lt.2 h)]
  · rw [hread, dif_pos ⟨by omega, by omega⟩]
    simp only [Nat.add_sub_cancel_left]
  · rw [hread, dif_neg (by omega)]

/-- A fatal load leaves the state as it was (R62). -/
theorem load_state_of_fatal {origin : Nat} {buf : List Byte} {s : State} {f : Fault}
    (h : (load origin buf s).2 = .fatal f) : (load origin buf s).1 = s := by
  unfold load at h ⊢
  split at h
  · rw [if_pos ‹_›]
    rfl
  · rw [if_neg ‹_›]
    split at h
    · cases h
    · rfl

/-- A fatal operation leaves the state as it was, whichever it is (R62). -/
theorem perform_state_of_fatal {p : Config.Params} {o : HostOp} {s : State} {f : Fault}
    (h : (perform p o s).2 = .fatal f) : (perform p o s).1 = s := by
  cases o with
  | reset | tickDelay | tickSound => cases h
  | load origin buf => exact load_state_of_fatal h
  | tick => exact tick_state_of_fatal h

/-- The frame of a memory replacement that keeps the bytes outside a range of addresses. -/
theorem unchangedBut_setMem {s : State} {m : Memory} {lo hi : Nat}
    (h : ∀ a, a < lo ∨ hi ≤ a → m.read a = s.mem.read a) :
    UnchangedBut (fun e => ∃ a : Fin 4096, lo ≤ a.val ∧ a.val < hi ∧ e = .mem a) s (s.setMem m) := by
  intro e he
  cases e with
  | mem a =>
    refine congrArg BitVec.toNat (h a.val ?_)
    by_contra hin
    exact he ⟨a, by omega, by omega, rfl⟩
  | _ => rfl

/-! ### The obligations on TICK -/

/-- Settles O40: the two ways a tick can end. -/
theorem tickReportsByRuleR60 : Obligations.TickReportsByRuleR60 := by
  intro diagEnable s
  obtain ⟨f, hf, htick⟩ | ⟨hnone, t, hstep, htick⟩ := tick_cases diagEnable s
  · rw [hf, htick]
    exact ⟨fun g hg => by rw [Option.some.inj hg], nofun⟩
  · rw [hnone, htick]
    refine ⟨nofun, fun _ => ⟨t, hstep, ?_⟩⟩
    cases instrAt s <;> rfl

/-- Settles O41: the state of either tick is the one the step decides. -/
theorem diagnosticNeverChangesState : Obligations.DiagnosticNeverChangesState := by
  intro s
  obtain ⟨f, -, hstep⟩ | ⟨-, t, hstep⟩ := step_fault_or_next s
  · rw [tick_of_fault true hstep, tick_of_fault false hstep]
  · rw [tick_of_next true hstep, tick_of_next false hstep]

/-- Settles O30: the step of an unrecognised word is the advance of the fetch, and its report is the diagnostic. -/
theorem unrecognisedTickOnlyAdvancesPc : Obligations.UnrecognisedTickOnlyAdvancesPc := by
  intro diagEnable s w hw hpc hhi hlo
  have hinstr : instrAt s = .unrecognised w :=
    (instrAt_of_bytes hhi hlo).trans (Decodes.unrecognised hw).decode_eq
  have hstep : step s = .next (s.setPc (s.pc + 2#16)) := by
    rw [step_inside hpc, hinstr]
    rfl
  refine ⟨_, ?_, pc_advance hpc, unchangedBut_setPc s _⟩
  rw [tick_of_next diagEnable hstep, hinstr]
  rfl

/-- Settles O33: a fatal tick keeps `pc` with the whole state; otherwise JP, CALL and RET write it, and every other
instruction leaves it where the fetch put it. -/
theorem tickMovesPcByTheTable : Obligations.TickMovesPcByTheTable := by
  intro diagEnable s
  refine ⟨fun f hf => by rw [tick_state_of_fatal hf], fun hok => ?_⟩
  obtain ⟨f, -, htick⟩ | ⟨-, t, hstep, htick⟩ := tick_cases diagEnable s
  · exact absurd (congrArg Prod.snd htick) (hok f)
  obtain ⟨hpc, he⟩ := exec_instrAt_of_step hstep
  have hother (hno : ¬ mayWrite (instrAt s) (s.setPc (s.pc + 2#16)) .pc) : t.pc.toNat = s.pc.toNat + 2 := by
    rw [(exec_frame he).1.pc_eq hno]
    exact pc_advance hpc
  rw [htick]
  cases hi : instrAt s with
  | jp nnn =>
    rw [hi] at he
    cases he
    exact addrOperand_toNat nnn
  | call nnn =>
    rw [hi] at he
    obtain ⟨k, hk, rfl⟩ := exec_call_next he
    refine ⟨addrOperand_toNat nnn, k, hk.symm, ?_⟩
    simpa [State.getSlot_setSlot] using pc_advance hpc
  | ret =>
    rw [hi] at he
    obtain ⟨k, hk, rfl⟩ := exec_ret_next he
    exact ⟨k, hk.symm, rfl⟩
  | cls | ldVx _ _ | addVx _ _ | ldI _ | drw _ _ _ | unrecognised _ => exact hother (by simp [hi, mayWrite])

/-! ### The obligations on LOAD, and on every operation that ends fatally -/

/-- Settles O42: the state is kept, so the operation repeated is the same operation from the same state. -/
theorem fatalOperationsLeaveNoTrace : Obligations.FatalOperationsLeaveNoTrace := by
  intro p o s f h
  have hs := perform_state_of_fatal h
  exact ⟨hs, by rw [hs, h]⟩

/-- Settles O45: what the load reads back, and the frame of its one write of memory. -/
theorem loadWritesExactlyTheBuffer : Obligations.LoadWritesExactlyTheBuffer := by
  intro p origin buf s hm hfit
  obtain ⟨m, hload, -, hbuf, hrest⟩ := load_inside hm hfit
  exact ⟨s.setMem m, hload, hbuf, hrest, unchangedBut_setMem hrest⟩

/-- Settles O46: the fit test comes before any write. -/
theorem loadThatDoesNotFitWritesNothing : Obligations.LoadThatDoesNotFitWritesNothing := fun _ _ _ s h =>
  load_outside s h

/-- Settles O47: the two bytes at `pc` are the buffer's, so the instruction there is the one they make. -/
theorem loadedCodeIsFetchedNext : Obligations.LoadedCodeIsFetchedNext := by
  intro p s origin k buf hk hm hfit hpc
  obtain ⟨m, hload, -, hbuf, -⟩ := load_inside hm hfit
  have hinstr : instrAt (s.setMem m) = decode (composeWord buf[k] buf[k + 1]) := by
    rw [instrAt, State.setMem_pc, State.setMem_mem, hpc, hbuf k (by omega), Nat.add_assoc, hbuf (k + 1) hk]
  refine ⟨s.setMem m, hload, ?_⟩
  rw [step_inside (by rw [State.setMem_pc]; omega), hinstr, State.setMem_pc]

end Sys2Proof.Machine

/-! PROOFS. The invariant of reachable states (R29): every write keeps it, so every instruction, every step and every
host operation does. -/

namespace Sys2Proof.Machine

/-! ### Each write keeps the invariant -/

namespace State.Inv

variable {s : State}

theorem setPc (h : s.Inv) {a : Word} (ha : a.toNat ≤ 4096) : (s.setPc a).Inv := { h with pc_le := ha }

theorem setI (h : s.Inv) {a : Word} (ha : a.toNat ≤ 4095) : (s.setI a).Inv := { h with i_le := ha }

theorem setV (h : s.Inv) (x : RegIdx) (b : Byte) : (s.setV x b).Inv := { h with }

theorem setFb (h : s.Inv) (f : Framebuffer) : (s.setFb f).Inv := { h with }

theorem setMem (h : s.Inv) {m : Memory} (hm : m.wf) : (s.setMem m).Inv := { h with mem_wf := hm }

/-- A pop leaves fewer entries to speak of. -/
theorem setSp (h : s.Inv) {n : Fin 17} (hn : n.val ≤ s.sp.val) : (s.setSp n).Inv :=
  { h with stack_range := fun k hk => h.stack_range k (Nat.lt_of_lt_of_le hk hn) }

/-- A push adds one entry. -/
theorem push (h : s.Inv) {k : Fin 16} (hk : s.sp.val = k.val) {a : Word} (ha : 2 ≤ a.toNat ∧ a.toNat ≤ 4096) :
    ((s.setSlot k a).setSp k.succ).Inv :=
  { h with
    stack_range := fun j hj => by
      rw [State.getSlot_setSp, State.getSlot_setSlot]
      by_cases hjk : j = k
      · rwa [if_pos hjk]
      · have hjk' : j.val ≠ k.val := Fin.val_ne_of_ne hjk
        rw [State.setSp_sp, Fin.val_succ] at hj
        rw [if_neg hjk]
        exact h.stack_range j (by omega) }

/-- A draw touches nothing the invariant speaks of. -/
theorem draw (h : s.Inv) {t : State} (hst : SameButDraw s t) : t.Inv := by
  obtain ⟨hpc, hi, hstack, hsp, hdt, hst, hmem, -⟩ := hst
  exact {
    pc_le := hpc ▸ h.pc_le
    i_le := hi ▸ h.i_le
    stack_range := fun k hk => by
      rw [State.getSlot, hstack]
      exact h.stack_range k (hsp ▸ hk)
    dt_zero := hdt ▸ h.dt_zero
    st_zero := hst ▸ h.st_zero
    mem_wf := hmem ▸ h.mem_wf }

end State.Inv

/-! ### Each instruction, each step and each operation keeps it -/

/-- An address operand names one of the 4096 bytes. -/
theorem addrOperand_toNat_le (nnn : Addr12) : (addrOperand nnn).toNat ≤ 4095 := by
  rw [addrOperand_toNat]
  omega

/-- Every instruction keeps the invariant, from the state a fetch leaves: its `pc`, which CALL pushes, is at least 2. -/
theorem exec_keeps_inv {i : Instr} {s t : State} (hs : s.Inv) (hpc : 2 ≤ s.pc.toNat) (h : exec i s = .next t) :
    t.Inv := by
  cases i with
  | cls => cases h; exact hs.setFb _
  | jp nnn => cases h; exact hs.setPc (Nat.le_succ_of_le (addrOperand_toNat_le nnn))
  | ldVx x nn => cases h; exact hs.setV x nn
  | addVx x nn => cases h; exact hs.setV x _
  | ldI nnn => cases h; exact hs.setI (addrOperand_toNat_le nnn)
  | unrecognised w => cases h; exact hs
  | drw x y n => exact hs.draw (sameButDraw_of_exec_drw h)
  | ret =>
    obtain ⟨k, hk, rfl⟩ := exec_ret_next h
    obtain ⟨-, hentry⟩ := hs.stack_range k (by omega)
    exact (hs.setSp (by rw [Fin.val_castSucc]; omega)).setPc hentry
  | call nnn =>
    obtain ⟨k, hk, rfl⟩ := exec_call_next h
    exact (hs.push hk ⟨hpc, hs.pc_le⟩).setPc (Nat.le_succ_of_le (addrOperand_toNat_le nnn))

/-- Every step keeps the invariant (R29). -/
theorem step_keeps_inv {s t : State} (hs : s.Inv) (h : step s = .next t) : t.Inv := by
  obtain ⟨hpc, he⟩ := exec_instrAt_of_step h
  have hadvance := pc_advance hpc
  exact exec_keeps_inv (hs.setPc (by omega)) (by rw [State.setPc_pc]; omega) he

/-- The reset state meets the invariant (R28, R29). -/
theorem reset_inv : State.reset.Inv where
  pc_le := by decide
  i_le := by decide
  stack_range := fun _ hk => absurd hk (Nat.not_lt_zero _)
  dt_zero := rfl
  st_zero := rfl
  mem_wf := Memory.wf_nil

/-- Every host operation keeps the invariant, whatever its outcome (R29). -/
theorem perform_keeps_inv (p : Config.Params) (o : HostOp) {s : State} (hs : s.Inv) : (perform p o s).1.Inv := by
  cases o with
  | reset => exact reset_inv.setMem (imageMemory_wf p.resetMemImage)
  | load origin buf =>
    by_cases hfit : origin + buf.length ≤ 4096
    · obtain ⟨m, hload, hwf, -⟩ := load_inside hs.mem_wf hfit
      rw [perform, hload]
      exact hs.setMem hwf
    · rw [perform, load_outside s (by omega)]
      exact hs
  | tick =>
    rw [perform]
    obtain ⟨f, -, htick⟩ | ⟨-, t, hstep, htick⟩ := tick_cases p.diagEnable s
    · rw [htick]
      exact hs
    · rw [htick]
      exact step_keeps_inv hs hstep
  | tickDelay => exact { hs with dt_zero := congrArg countDown hs.dt_zero }
  | tickSound => exact { hs with st_zero := congrArg countDown hs.st_zero }

/-! ### The obligations -/

/-- Settles O37: zero everywhere, and `pc` at the origin. -/
theorem resetMeetsTheInvariant : Obligations.ResetMeetsTheInvariant := reset_inv

/-- Settles O38: the fetch and the instruction each keep the invariant. -/
theorem stepKeepsTheInvariant : Obligations.StepKeepsTheInvariant := fun _ _ => step_keeps_inv

/-- Settles O39, by induction on the sequence of operations. -/
theorem reachableStatesMeetTheInvariant : Obligations.ReachableStatesMeetTheInvariant := by
  intro p s hreach
  induction hreach with
  | reset => exact reset_inv.setMem (imageMemory_wf p.resetMemImage)
  | op o _ ih => exact perform_keeps_inv p o ih

end Sys2Proof.Machine

/-! PROOFS. RESET, the framebuffer view and inspection (R27, R28, R106, R107, R110). -/

namespace Sys2Proof.Machine

/-! ### RESET -/

/-- A byte of memory after RESET is the last one the image gives its address, else 0 (R110): by induction on the image
from its end, where the last write stands. -/
theorem imageMemory_read (image : Config.MemImage) (a : Fin 4096) :
    (imageMemory image).read a.val = ((image.reverse.find? (fun c => c.1 == a)).map Prod.snd).getD 0#8 := by
  induction image using List.reverseRecOn with
  | nil => rfl
  | append_singleton front c ih =>
    have hlast : imageMemory (front ++ [c]) = (imageMemory front).write c.1 c.2 := List.foldl_concat ..
    rw [hlast, Memory.read_write (imageMemory_wf front), List.reverse_append, List.reverse_singleton,
      List.singleton_append, List.find?_cons]
    by_cases hc : c.1 = a
    · simp [hc]
    · have hv : a.val ≠ c.1.val := fun h => hc (Fin.ext h.symm)
      rw [if_neg hv, ih, beq_eq_false_iff_ne.2 hc]

/-- What inspection shows of the reset state: 0 but for `pc` (R28). -/
theorem inspect_reset (e : Element) : inspect e State.reset = if e = .pc then 0x200 else 0 := by
  cases e with
  | v r => simp [inspect, State.reset, State.getV]
  | stack k => simp [inspect, State.reset, State.getSlot]
  | fb r c => simp [inspect, State.reset, State.getCell, Framebuffer.dark]
  | _ => rfl

/-! ### The framebuffer view -/

/-- The view is the framebuffer's rows flattened (R106). -/
theorem framebufferView_eq (s : State) : framebufferView s = s.fb.flatten.toList := by
  have hflat : s.fb.flatten.toList = (s.fb.toArray.map Vector.toArray).flatten.toList := rfl
  rw [hflat, Array.toList_flatten, Array.toList_map, List.map_map, framebufferView, List.flatMap_def]
  rfl

/-! ### The obligations -/

/-- Settles O36: RESET writes every element of the reset table, and the image's bytes into memory. -/
theorem resetLeavesRuleR28 : Obligations.ResetLeavesRuleR28 := by
  refine ⟨fun p s => ⟨State.resetWith p.resetMemImage, rfl, ?_⟩, inspect_reset⟩
  have zero {e : Element} (he : e ≠ .pc) : inspect e State.reset = 0 := by rw [inspect_reset, if_neg he]
  refine ⟨fun r => ?_, rfl, rfl, fun k => ?_, rfl, rfl, rfl, fun r c => ?_, fun a => ?_, fun himage => ?_⟩
  · exact BitVec.eq_of_toNat_eq (zero (e := .v r) nofun)
  · exact BitVec.eq_of_toNat_eq (zero (e := .stack k) nofun)
  · exact eq_of_cell_toNat_eq _ _ (zero (e := .fb r c) nofun)
  · exact imageMemory_read p.resetMemImage a
  · rw [himage]
    rfl

/-- Settles O48: a row-major index splits into its row and its column. -/
theorem framebufferViewIsRowMajor : Obligations.FramebufferViewIsRowMajor := by
  intro s
  rw [framebufferView_eq]
  refine ⟨Vector.length_toList, fun r c => ?_⟩
  have hlt : r.val * 64 + c.val < 32 * 64 := by omega
  have hrow : (r.val * 64 + c.val) / 64 = r.val := by omega
  have hcol : (r.val * 64 + c.val) % 64 = c.val := by omega
  rw [List.getElem?_eq_getElem (by rw [Vector.length_toList]; exact hlt), Vector.getElem_toList,
    Vector.getElem_flatten hlt]
  simp only [hrow, hcol]
  rfl

/-- Settles O49: each field of the state is a number read, a table of numbers read, or a canonical memory, which its
reads determine. -/
theorem inspectionSeesTheWholeState : Obligations.InspectionSeesTheWholeState := by
  intro s t hs ht h
  have hv : s.v = t.v := Vector.ext fun q hq => BitVec.eq_of_toNat_eq (h (.v ⟨q, hq⟩))
  have hpc : s.pc = t.pc := BitVec.eq_of_toNat_eq (h .pc)
  have hi : s.i = t.i := BitVec.eq_of_toNat_eq (h .i)
  have hstack : s.stack = t.stack := Vector.ext fun k hk => BitVec.eq_of_toNat_eq (h (.stack ⟨k, hk⟩))
  have hsp : s.sp = t.sp := Fin.ext (h .sp)
  have hdt : s.dt = t.dt := BitVec.eq_of_toNat_eq (h .dt)
  have hst : s.st = t.st := BitVec.eq_of_toNat_eq (h .st)
  have hfb : s.fb = t.fb := Vector.ext fun r hr => Vector.ext fun c hc =>
    eq_of_cell_toNat_eq _ _ (h (.fb ⟨r, hr⟩ ⟨c, hc⟩))
  have hmem : s.mem = t.mem := canonicalMemoryIsUnique s.mem t.mem hs ht fun a ha =>
    BitVec.eq_of_toNat_eq (h (.mem ⟨a, by omega⟩))
  cases s
  cases t
  simp only [State.mk.injEq]
  exact ⟨hv, hpc, hi, hstack, hsp, hdt, hst, hfb, hmem⟩

end Sys2Proof.Machine
